-- ==== Sys2Proof/Word.lean ====
section
/-! DEFINITION. The widths of the hardware's data: a byte is the only datum (20_memory.md R72, R74). -/

namespace Sys2Proof

/-- A byte, 0..255 (00_scope.md R11): a memory cell, a display slot, a key code, an operand. -/
abbrev Byte := BitVec 8

/-- The address of a host command, 16 bits unsigned (44_host_commands.md R200). -/
abbrev HostAddr := BitVec 16

/-- The value of `row_n[3:0]`: bit r is row r and reads 0 when pulled low (30_encoding.md R112). -/
abbrev Rows := BitVec 4

/-- A host command word (30_encoding.md R107): code 26:24, address 23:8, datum 7:0. -/
abbrev CommandWord := BitVec 27

end Sys2Proof
end

