-- ==== Sys2Proof/Config.lean ====
section
/-! DEFINITION. The parameters of the core (00_scope.md R6, R8). Those the spec fixes have a value; those it
leaves open are constants with no body, in types that carry the constraints the spec does give (10_state.md R43):
nothing can be proved of them but those constraints. -/

namespace Sys2Proof

/-- What an address at or above N does; the spec names three policies (20_memory.md R70). -/
inductive OorPolicy
  | reject
  | clamp
  | wrap
deriving DecidableEq, Repr

/-- N: the size of the Address Space in bytes (R6). -/
abbrev Config.memSize : Nat := 1024

/-- START: the program counter at the start of each run (R6, R182). -/
def Config.start : Byte := 10

/-- SENTINEL: the key code meaning "no key" (R6). -/
def Config.sentinel : Byte := 0xFF

/-- SHIFT_CODE: the primary code of the shift ("2nd") key (R6). -/
def Config.shiftCode : Byte := 0x4F

/-- SHIFT_FILL: the dash, index 19 of the Segment Table (R8, R165, decision D8; log 16). -/
def Config.shiftFill : Byte := 19

/-- BLANK_ABOVE: a slot value greater than this renders blank (R6). -/
abbrev Config.blankAbove : Nat := 19

/-- OOR_POLICY: reject (R70, decision D11; log 8). -/
def Config.oorPolicy : OorPolicy := .reject

/-- SEGW: the width in lines of a segment pattern, not given (R8; log 12). -/
opaque Config.segw : Nat

/-- SEG: the Segment Table, 20 patterns, contents not given (R43(a); log 12). -/
opaque Config.seg : Fin 20 → BitVec Config.segw

/-- Which hex digit sits at which of the sixteen positions of columns 0..3: each exactly once (R43(b); log 13). -/
opaque Config.hexLayout : Equiv.Perm (Fin 16)

/-- Which of the four function codes sits at which row of column 4: one per row (R43(b), decision D6; log 13). -/
opaque Config.functionLayout : Equiv.Perm (Fin 4)

/-- Which of the four secondary codes each of the entries 12..15 of SK holds (R43(c), decision D5; log 14). -/
opaque Config.secondaryLayout : Fin 4 → Fin 4

/-- CANCEL_CODE: any byte but 0xFF (R8, R184, decision D10; log 15). -/
opaque Config.cancelChoice : Fin 255

/-- The n-th draw of rule R167: a byte other than 0xFF, otherwise unconstrained (log 17). -/
opaque Config.freeSecondary : Nat → Fin 255

end Sys2Proof
end

