-- ==== Sys2Proof/Syntax.lean ====
section
/-! DEFINITION. The instructions: the one instruction of the emulated machine and the six host commands, one
constructor per row of spec/opcode_table.json. -/

namespace Sys2Proof

/-- What can be executed. `subleq` is the emulated machine's instruction (30_encoding.md R103); the others are the
commands of the foreground port (R107). -/
inductive Instr
  /-- `SUBLEQ a, b, c` (R180): three absolute 8-bit addresses (R102). -/
  | subleq (a b c : Byte)
  /-- `READ addr` (R201). -/
  | read (addr : HostAddr)
  /-- `WRITE addr, data` (R202). -/
  | write (addr : HostAddr) (data : Byte)
  /-- `PEEK_KEY` (R203). -/
  | peekKey
  /-- `GET_KEY` (R204). -/
  | getKey
  /-- `DBSET slot, data` (R205); the slot is `addr[2:0]`. -/
  | dbset (slot : BitVec 3) (data : Byte)
  /-- `RUN` (R206). -/
  | run
deriving DecidableEq, Repr

end Sys2Proof
end

