-- ==== Sys2Proof/WellFormed.lean ====
section
/-! DEFINITION. Which instructions are well formed: the one operand value the spec reserves is a `DBSET` slot of 6
or 7 (30_encoding.md R108); every other operand value is legal (R104, R107). -/

namespace Sys2Proof

/-- The slot of a `DBSET` names one of the six slots (R107, R108). -/
def slotInRange (slot : BitVec 3) : Bool := decide (slot.toNat < 6)

/-- Well-formedness of an instruction. -/
def Instr.wellFormed : Instr → Bool
  | .subleq _ _ _ => true
  | .read _ => true
  | .write _ _ => true
  | .peekKey => true
  | .getKey => true
  | .dbset slot _ => slotInRange slot
  | .run => true

end Sys2Proof
end

