-- ==== Sys2Proof/Decode.lean ====
section
/-! DEFINITION. Decoding and encoding. A `SUBLEQ` is three bytes in the order a, b, c (30_encoding.md R100, R101);
a host command is a 27-bit word (R107), which the model lays out as four bytes, most significant first (log 11). -/

namespace Sys2Proof

/-- Why bits are no instruction. -/
inductive DecodeError
  /-- Command codes 0b110 and 0b111 (R108). -/
  | reservedCode (code : BitVec 3)
  /-- `DBSET` with slot 6 or 7 (R108). -/
  | reservedSlot (slot : BitVec 3)
  /-- A fourth-from-last byte above 7: a command word has 27 bits (R107; log 11). -/
  | notACommandWord (high : Byte)
  /-- Neither three bytes (R100) nor the four of a command word. -/
  | wrongLength (bytes : Nat)
deriving DecidableEq, Repr

/-- The answer of the decoder: an instruction, or a rejection by name. -/
inductive Decoded
  | instr (i : Instr)
  | rejected (e : DecodeError)
deriving DecidableEq, Repr

/-- Bits 26:24 of a command word: its code (R107). -/
def commandCode (w : CommandWord) : BitVec 3 := w.extractLsb' 24 3

/-- Bits 23:8 of a command word: the address (R107). -/
def commandAddr (w : CommandWord) : HostAddr := w.extractLsb' 8 16

/-- Bits 7:0 of a command word: the datum (R107). -/
def commandData (w : CommandWord) : Byte := w.extractLsb' 0 8

/-- `addr[2:0]`, the slot of a `DBSET` (R107); the other address bits are ignored. -/
def commandSlot (w : CommandWord) : BitVec 3 := w.extractLsb' 8 3

/-- The command table of R107 and the reserved codes of R108. -/
def decodeCommand (w : CommandWord) : Decoded :=
  match (commandCode w).toNat with
  | 0 => .instr (.read (commandAddr w))
  | 1 => .instr (.write (commandAddr w) (commandData w))
  | 2 => .instr .peekKey
  | 3 => .instr .getKey
  | 4 =>
    if slotInRange (commandSlot w) then .instr (.dbset (commandSlot w) (commandData w))
    else .rejected (.reservedSlot (commandSlot w))
  | 5 => .instr .run
  | _ => .rejected (.reservedCode (commandCode w))

/-- Decoding on any bytes. Three bytes are always a `SUBLEQ` (R103, R104). -/
def decode : List Byte → Decoded
  | [a, b, c] => .instr (.subleq a b c)
  | [k, h, l, d] =>
    if k.toNat < 8 then decodeCommand (k.setWidth 3 ++ (h ++ l) ++ d) else .rejected (.notACommandWord k)
  | bytes => .rejected (.wrongLength bytes.length)

/-- A command word from its three fields (R107). -/
def commandWord (code : BitVec 3) (addr : HostAddr) (data : Byte) : CommandWord := code ++ addr ++ data

/-- The four bytes of a command word, most significant first (log 11). -/
def commandBytes (w : CommandWord) : List Byte :=
  [(w.extractLsb' 24 3).setWidth 8, w.extractLsb' 16 8, w.extractLsb' 8 8, w.extractLsb' 0 8]

/-- The bytes of an instruction; fields a command ignores are written 0 (log 29). -/
def encode : Instr → List Byte
  | .subleq a b c => [a, b, c]
  | .read addr => commandBytes (commandWord 0 addr 0)
  | .write addr data => commandBytes (commandWord 1 addr data)
  | .peekKey => commandBytes (commandWord 2 0 0)
  | .getKey => commandBytes (commandWord 3 0 0)
  | .dbset slot data => commandBytes (commandWord 4 (slot.setWidth 16) data)
  | .run => commandBytes (commandWord 5 0 0)

/-- The bytes of a word numbered as spec/opcode_table.json numbers it: the 24-bit pattern has byte 0 (a) in bits
23:16 (R101); a command word is the 27-bit number of R107 (log 11). -/
def tableBytes (nbits w : Nat) : List Byte :=
  if nbits ≤ 24 then [BitVec.ofNat 8 (w / 65536), BitVec.ofNat 8 (w / 256), BitVec.ofNat 8 w]
  else [BitVec.ofNat 8 (w / 16777216), BitVec.ofNat 8 (w / 65536), BitVec.ofNat 8 (w / 256), BitVec.ofNat 8 w]

/-- What the decoder reads from a table word of `nbits` bits. -/
def decodeTableWord (nbits w : Nat) : Option Instr :=
  match decode (tableBytes nbits w) with
  | .instr i => some i
  | .rejected _ => none

end Sys2Proof
end

