-- ==== Sys2Proof/Machine/State.lean ====
section
/-! DEFINITION. The state of the core (10_state.md), as plain data, and its value after reset (R45). -/

namespace Sys2Proof.Machine

/-- Plain storage (10_state.md R30): the listed bytes in rising address order, no entry equal to what an unlisted
address reads as (log 5). -/
abbrev Memory := List Host.Cell

/-- The six display slots (10_state.md R27). -/
abbrev Slots := Vector Byte 6

/-- `KS`, the Keyboard State (10_state.md R34 to R39). -/
structure KeyboardState where
  activeColumn  : Fin 5
  debounceLatch : Bool
  keyHeld       : Bool
  activeRow     : Option (Fin 4)
  currentCode   : Byte
deriving DecidableEq, Repr

/-- `seg_out` (10_state.md R41): blank, or a pattern of the Segment Table. -/
inductive SegOut
  | blank
  | pattern (p : BitVec Config.segw)
deriving DecidableEq, Repr

/-- The operand latches of the Emulator Loop (10_state.md R21). -/
structure OperandLatches where
  a      : Byte
  b      : Byte
  c      : Byte
  result : Byte
deriving DecidableEq, Repr

/-- The temporaries of `GetKey` (10_state.md R42). -/
structure GetKeyTemps where
  saved : Slots
  k     : Byte
  d     : Byte
  m     : Byte
deriving DecidableEq, Repr

/-- The micro-steps of `GetKey` (42_key_input.md R163): the saves, the fills and the restores are one per slot. -/
inductive GetKeyPhase
  | gk1
  | gk2
  | gk3Save (i : Fin 6)
  | gk3Fill (i : Fin 6)
  | gk4
  | gk5
  | gk6
  | gk7 (i : Fin 6)
  | gk8
deriving DecidableEq, Repr

/-- Who called `GetKey`: the host's command (R204), or the exit sequence of a run (R186, phase X2). -/
inductive Caller
  | host
  | run
deriving DecidableEq, Repr

/-- `fg`, the foreground sequencer (10_state.md R25): E0 to E9 and X1 of 43_subleq_emulator.md; X2 is
`getKey .run`; `idle` is FG_IDLE. -/
inductive Phase
  | idle
  | getKey (caller : Caller) (p : GetKeyPhase)
  | e0
  | e1
  | e2
  | e3
  | e4
  | e5
  | e6
  | e7
  | e8
  | e9
  | x1
deriving DecidableEq, Repr

/-- What the command port holds for the host (44_host_commands.md R200; log 7): nothing (no command has completed
since the last one was accepted), completion with no result, or a byte. -/
inductive Response
  | nothing
  | done
  | datum (v : Byte)
deriving DecidableEq, Repr

/-- What the environment supplies next (00_scope.md R9, R10; log 2). -/
inductive Arrival
  /-- The `tick` event with the value of `row_n[3:0]` (R120). -/
  | tick (rows : Rows)
  /-- The host offers a command word (R200). -/
  | command (w : CommandWord)
  /-- The `reset` event; memory and display come up with any contents (R240, R29, R32). -/
  | reset (mem0 : List Host.Cell) (db0 : Slots)
  /-- The foreground performs one micro-step (R10). -/
  | micro
  /-- The foreground proceeds undisturbed: a whole instruction at E1, else one micro-step (log 1). -/
  | proceed
deriving DecidableEq, Repr

/-- Reasons the machine reports a condition. -/
inductive Fault
  /-- `READ` or `WRITE` at an address at or above N (20_memory.md R70, 93_implementation_defined.md U1): nothing
  changes and no datum is returned. Safe: the hardware goes on, the model stops (log 8). -/
  | addressOutOfRange (addr : HostAddr)
deriving DecidableEq, Repr

/-- Requests the spec gives no meaning (00_scope.md R13). -/
inductive Refusal
  /-- `exec`, for an instruction without a meaning. Safe. -/
  | notModelled (mnemonic : String)
  /-- Every host command, when another is in progress (R200). Safe. -/
  | busy
  /-- The command port, for a word that is no command (R108). Safe. -/
  | reservedEncoding (e : DecodeError)
  /-- `DBSET` with slot 6 or 7 (R108). Safe. -/
  | reservedSlot (slot : BitVec 3)
deriving DecidableEq, Repr

/-- The state of the core. The last three fields are the model's: the command port's result (log 7), what the
environment supplies next (log 2), and how many free values have been drawn (log 17). -/
structure State where
  db           : Slots
  mem          : Memory
  currentDigit : Fin 6
  ks           : KeyboardState
  digitSel     : Option (Fin 6)
  segOut       : SegOut
  colDrive     : Fin 5
  pc           : Byte
  latch        : OperandLatches
  fg           : Phase
  gk           : GetKeyTemps
  response     : Response
  arrivals     : List Arrival
  draws        : Nat
deriving DecidableEq, Repr

/-- The Keyboard State after reset (10_state.md R45). -/
def KeyboardState.reset : KeyboardState :=
  { activeColumn := 0, debounceLatch := false, keyHeld := false, activeRow := none, currentCode := Config.sentinel }

/-- The state after reset when memory holds `mem0` and the display `db0` (R45, parameters MEM0 and DB0). The
program counter, the operand latches and the temporaries have no reset value in the spec: zero (log 4). -/
def State.resetWith (mem0 : Memory) (db0 : Slots) : State :=
  { db := db0
    mem := mem0
    currentDigit := 0
    ks := KeyboardState.reset
    digitSel := none
    segOut := .blank
    colDrive := 0
    pc := 0
    latch := { a := 0, b := 0, c := 0, result := 0 }
    fg := .idle
    gk := { saved := Vector.replicate 6 0, k := 0, d := 0, m := 0 }
    response := .nothing
    arrivals := []
    draws := 0 }

/-- The machine right after reset: nothing listed in memory (log 5), the display slots zero (log 6). -/
def State.reset : State := State.resetWith [] (Vector.replicate 6 0)

end Sys2Proof.Machine
end

