-- ==== Sys2Proof/Machine/Operands.lean ====
section
/-! DEFINITION. Operands, nibbles, the address map, and the constant tables. The one addressing mode is absolute direct with
an 8-bit address (43_subleq_emulator.md R190; 30_encoding.md R102). -/

namespace Sys2Proof.Machine

/-- `v & 0xF` (00_scope.md R11). -/
def lowNibble (v : Byte) : Byte := v &&& 0x0F

/-- `(v >> 4) & 0xF` (00_scope.md R11). -/
def highNibble (v : Byte) : Byte := (v >>> 4) &&& 0x0F

/-- `{h[3:0], l[3:0]}`: the low nibbles of two slots as one byte (20_memory.md R64). -/
def packNibbles (h l : Byte) : Byte := (lowNibble h <<< 4) ||| lowNibble l

/-- An address of the Address Space: 0 .. N-1 (20_memory.md R60). -/
abbrev Address := Fin Config.memSize

/-- An operand byte is the address, zero-extended (30_encoding.md R102): always below N (00_scope.md R7). -/
def operandAddress (v : Byte) : Address := ⟨v.toNat, Nat.lt_of_lt_of_le v.isLt (by decide)⟩

/-- The address a host command reaches, by the out-of-range policy (20_memory.md R70; log 8). -/
def resolveAddress (addr : HostAddr) : Option Address :=
  if h : addr.toNat < Config.memSize then some ⟨addr.toNat, h⟩
  else
    match Config.oorPolicy with
    | .reject => none
    | .clamp => some ⟨Config.memSize - 1, by decide⟩
    | .wrap => some ⟨addr.toNat % Config.memSize, Nat.mod_lt _ (by decide)⟩

/-- The backing state of an address: the map of 20_memory.md R61. -/
inductive Backing
  | plain
  | slot (i : Fin 6)
  | pair (even odd : Fin 6)
deriving DecidableEq, Repr

/-- The address map of 20_memory.md R61. -/
def backing (a : Address) : Backing :=
  match a.val with
  | 1 => .slot 0
  | 2 => .slot 1
  | 3 => .slot 2
  | 4 => .slot 3
  | 5 => .slot 4
  | 6 => .slot 5
  | 7 => .pair 0 1
  | 8 => .pair 2 3
  | 9 => .pair 4 5
  | _ => .plain

/-- Whether an address is plain storage: 0 or 10..N-1 (10_state.md R30, R31). -/
def isPlain (n : Nat) : Bool := decide (n < Config.memSize ∧ (n = 0 ∨ 10 ≤ n))

/-- The slot a `DBSET` names, for the slots 0..5 (44_host_commands.md R205); slots 6 and 7 are reserved (R108). -/
def slotIndex (slot : BitVec 3) : Option (Fin 6) :=
  if h : slot.toNat < 6 then some ⟨slot.toNat, h⟩ else none

/-- The slot after slot i, in slot order (42_key_input.md R165). -/
def nextSlot (i : Fin 6) : Option (Fin 6) :=
  if h : i.val + 1 < 6 then some ⟨i.val + 1, h⟩ else none

/-- The primary function codes 0x1F, 0x2F, 0x3F, 0x4F (10_state.md R44). -/
def functionCode (i : Fin 4) : Byte := BitVec.ofNat 8 (0x1F + 0x10 * i.val)

/-- The secondary codes 0x5F, 0x6F, 0x7F, 0x8F (10_state.md R44). -/
def secondaryCode (i : Fin 4) : Byte := BitVec.ofNat 8 (0x5F + 0x10 * i.val)

/-- `KM[r][c]` (10_state.md R43(b)): columns 0..3 hold the sixteen hex digits, column 4 the function codes, in a
layout that is a parameter (log 13). -/
def keyMatrix (r : Fin 4) (c : Fin 5) : Byte :=
  if h : c.val < 4 then BitVec.ofNat 8 (Config.hexLayout ⟨4 * r.val + c.val, by omega⟩).val
  else functionCode (Config.functionLayout r)

/-- `SK[d]` (10_state.md R43(c)): 0 for d in 0..11, a secondary code for d in 12..15 (log 14). -/
def secondaryKey (d : Fin 16) : Byte :=
  if h : 12 ≤ d.val then secondaryCode (Config.secondaryLayout ⟨d.val - 12, by omega⟩) else 0

/-- The n-th draw of R167: a byte of 0..254 (log 17). -/
def drawnCode (n : Nat) : Byte := BitVec.ofNat 8 (Config.freeSecondary n).val

/-- `CANCEL_CODE` (00_scope.md R8): a byte of 0..254 (log 15). -/
def cancelCode : Byte := BitVec.ofNat 8 Config.cancelChoice.val

/-- What a slot value puts on the segment lines (40_display_multiplexer.md R122): the whole byte is compared. -/
def glyph (v : Byte) : SegOut :=
  if h : v.toNat ≤ Config.blankAbove then .pattern (Config.seg ⟨v.toNat, Nat.lt_succ_of_le h⟩) else .blank

end Sys2Proof.Machine
end

