-- ==== Sys2Proof/Machine/Flags.lean ====
section
/-! DEFINITION. Arithmetic and conditions. The machine has no flags (10_state.md R24): the branch tests the
just-computed result, and the cancel check the latched key code. -/

namespace Sys2Proof.Machine

/-- The one arithmetic operation: `(vb - va) mod 256` (43_subleq_emulator.md R188). -/
def difference (vb va : Byte) : Byte := vb - va

/-- The branch condition: the result is exactly zero (43_subleq_emulator.md R189). -/
def branchTaken (result : Byte) : Bool := result == 0

/-- The loop condition `PC > 0`, unsigned: `pc != 0` (43_subleq_emulator.md R183). -/
def runGoesOn (pc : Byte) : Bool := pc != 0

/-- `code = CANCEL_CODE` (43_subleq_emulator.md R184). The sentinel never cancels, so it is tested first, which
keeps the check computable when no key is latched (log 26). -/
def isCancel (code : Byte) : Bool := if code = Config.sentinel then false else code == cancelCode

/-- The increment of the program counter, modulo 256 (10_state.md R22; log 18). -/
def nextPc (pc : Byte) : Byte := pc + 1

end Sys2Proof.Machine
end

