-- ==== Sys2Proof/Machine/Ops.lean ====
section
/-! DEFINITION. The named operations over memory, the display window, the command port and the sequencer. The
hardware has no exception, so there is no operation that takes one and none that returns (60_exceptions.md R220,
R224, R225); the one reported condition is `reportOutOfRange`. -/

namespace Sys2Proof.Machine

/-- What an address that memory does not list reads as (log 5). -/
def Memory.unlisted : Byte := 0

/-- The byte listed for an address, or what an unlisted address reads as. -/
def Memory.read : Memory → Nat → Byte
  | [], _ => Memory.unlisted
  | c :: m, a => if c.1 = a then c.2 else Memory.read m a

/-- A cell put before the first listed address above its own. -/
def Memory.insert (a : Nat) (v : Byte) : Memory → Memory
  | [] => [(a, v)]
  | c :: m => if a < c.1 then (a, v) :: c :: m else c :: Memory.insert a v m

/-- A byte written: the old entry goes, and the new one is listed unless it is what an unlisted address reads as. -/
def Memory.write (m : Memory) (a : Nat) (v : Byte) : Memory :=
  if v = Memory.unlisted then m.filter (fun c => c.1 != a) else Memory.insert a v (m.filter (fun c => c.1 != a))

/-- The canonical form: addresses strictly rising, each of plain storage, no entry an unlisted address would read. -/
abbrev Memory.wf (m : Memory) : Prop :=
  m.Pairwise (fun x y => x.1 < y.1) ∧ ∀ c ∈ m, c.2 ≠ Memory.unlisted ∧ isPlain c.1 = true

/-- Any list of cells as memory: those at plain-storage addresses, later ones first (10_state.md R31, R32). -/
def Memory.ofCells : List Host.Cell → Memory
  | [] => []
  | c :: cs => if isPlain c.1 then Memory.write (Memory.ofCells cs) c.1 c.2 else Memory.ofCells cs

/-- One display slot read directly, all eight bits (20_memory.md R84). -/
def State.slot (s : State) (i : Fin 6) : Byte := s.db[i]

/-- One display slot written directly, all eight bits (20_memory.md R84). -/
def State.setSlot (s : State) (i : Fin 6) (v : Byte) : State := { s with db := s.db.set i v }

/-- One byte of plain storage written. -/
def State.setMem (s : State) (a : Nat) (v : Byte) : State := { s with mem := s.mem.write a v }

/-- The sequencer goes to a phase (10_state.md R25). -/
def State.goto (s : State) (p : Phase) : State := { s with fg := p }

/-- The command port's result (44_host_commands.md R200; log 7). -/
def State.respond (s : State) (r : Response) : State := { s with response := r }

/-- The program counter written (10_state.md R22). -/
def State.setPc (s : State) (pc : Byte) : State := { s with pc := pc }

/-- `MemRead(addr, 1)` (20_memory.md R62 to R65). -/
def memRead (s : State) (a : Address) : Byte :=
  match backing a with
  | .plain => s.mem.read a.val
  | .slot i => lowNibble (s.slot i)
  | .pair even odd => packNibbles (s.slot odd) (s.slot even)

/-- `MemWrite(addr, 1, v)` (20_memory.md R66 to R69). -/
def memWrite (s : State) (a : Address) (v : Byte) : State :=
  match backing a with
  | .plain => s.setMem a.val v
  | .slot i => s.setSlot i v
  | .pair even odd => (s.setSlot even (lowNibble v)).setSlot odd (highNibble v)

/-- A host command begins only when the foreground is idle; otherwise it is refused (44_host_commands.md R200).
Accepting it clears the port's result (log 7). -/
def accept (s : State) (body : State → Host.Outcome State Fault Refusal) : Host.Outcome State Fault Refusal :=
  if s.fg = .idle then body (s.respond .nothing) else .refused .busy

/-- `raise AddressOutOfRange(addr)` (20_memory.md R70): the condition, and no state. -/
def reportOutOfRange (addr : HostAddr) : Host.Outcome State Fault Refusal := .fault (.addressOutOfRange addr)

/-- Whether the latched key code is the cancel code (43_subleq_emulator.md R184): `PeekKey() = CANCEL_CODE`. -/
def cancelObserved (s : State) : Bool := isCancel s.ks.currentCode

/-- The `reset` event (70_reset_and_hazards.md R240): every element at the value of R45, memory and display with
any contents. What the environment supplies afterwards, and the count of draws, are the model's own and stay. -/
def resetEvent (mem0 : List Host.Cell) (db0 : Slots) (s : State) : State :=
  { State.resetWith (Memory.ofCells mem0) db0 with arrivals := s.arrivals, draws := s.draws }

end Sys2Proof.Machine
end

