-- ==== Sys2Proof/Machine/Commands.lean ====
section
/-! DEFINITION. The host commands that access memory and the display (44_host_commands.md R201, R202, R205); each
completes in one micro-step (R200). -/

namespace Sys2Proof.Machine

/-- `READ addr` (R201). -/
def execRead (addr : HostAddr) (s : State) : Host.Outcome State Fault Refusal :=
  accept s fun s =>
    match resolveAddress addr with
    | some a => .next (s.respond (.datum (memRead s a)))
    | none => reportOutOfRange addr

/-- `WRITE addr, data` (R202). -/
def execWrite (addr : HostAddr) (data : Byte) (s : State) : Host.Outcome State Fault Refusal :=
  accept s fun s =>
    match resolveAddress addr with
    | some a => .next ((memWrite s a data).respond .done)
    | none => reportOutOfRange addr

/-- `DBSET slot, data` (R205); slots 6 and 7 are refused (R108). -/
def execDbset (slot : BitVec 3) (data : Byte) (s : State) : Host.Outcome State Fault Refusal :=
  accept s fun s =>
    match slotIndex slot with
    | some i => .next ((s.setSlot i data).respond .done)
    | none => .refused (.reservedSlot slot)

end Sys2Proof.Machine
end

