-- ==== Sys2Proof/Machine/KeyInput.lean ====
section
/-! DEFINITION. Key input: `PeekKey` and the micro-steps of `GetKey` (42_key_input.md). -/

namespace Sys2Proof.Machine

/-- `PeekKey()` (R160). -/
def peekKey (s : State) : Byte := s.ks.currentCode

/-- `GetKey` returns: to the host with its code, or to the exit sequence of a run, which discards the code and
completes the `RUN` command (R163, R186 phase X3; log 21). -/
def getKeyReturn (caller : Caller) (v : Byte) (s : State) : State :=
  match caller with
  | .host => (s.goto .idle).respond (.datum v)
  | .run => (s.goto .idle).respond .done

/-- `SKmap(d)` with the count of draws after it (R166, R167): the table for d in 0..15, a fresh draw above. -/
def secondaryMap (d : Byte) (draws : Nat) : Byte × Nat :=
  if h : d.toNat < 16 then (secondaryKey ⟨d.toNat, h⟩, draws) else (drawnCode draws, draws + 1)

/-- GK1: one evaluation of the poll for a key (R163). -/
def getKeyPoll (caller : Caller) (s : State) : State :=
  let s' := { s with gk := { s.gk with k := peekKey s } }
  if peekKey s = Config.sentinel then s'
  else if peekKey s = Config.shiftCode then s'.goto (.getKey caller (.gk3Save 0))
  else s'.goto (.getKey caller .gk2)

/-- GK2: one evaluation of the poll for the release; then the latched code is returned (R163, R164). -/
def getKeyRelease (caller : Caller) (s : State) : State :=
  if s.ks.keyHeld then s else getKeyReturn caller s.gk.k s

/-- GK3, first half: one slot saved (R163, R165). -/
def getKeySave (caller : Caller) (i : Fin 6) (s : State) : State :=
  let s' := { s with gk := { s.gk with saved := s.gk.saved.set i (s.slot i) } }
  match nextSlot i with
  | some j => s'.goto (.getKey caller (.gk3Save j))
  | none => s'.goto (.getKey caller (.gk3Fill 0))

/-- GK3, second half: one slot filled (R163, R165). -/
def getKeyFill (caller : Caller) (i : Fin 6) (s : State) : State :=
  match nextSlot i with
  | some j => (s.setSlot i Config.shiftFill).goto (.getKey caller (.gk3Fill j))
  | none => (s.setSlot i Config.shiftFill).goto (.getKey caller .gk4)

/-- GK4: one evaluation of the poll for the shift key's release (R163). -/
def getKeyShiftRelease (caller : Caller) (s : State) : State :=
  if s.ks.keyHeld then s else s.goto (.getKey caller .gk5)

/-- GK5: one evaluation of the poll for the second key, and its mapping (R163, R166, R167). -/
def getKeySecond (caller : Caller) (s : State) : State :=
  let s' := { s with gk := { s.gk with d := peekKey s } }
  if peekKey s = Config.sentinel then s'
  else
    let mapped := secondaryMap (peekKey s) s.draws
    { s' with gk := { s'.gk with m := mapped.1 }, draws := mapped.2, fg := .getKey caller .gk6 }

/-- GK6: one evaluation of the poll for the second key's release (R163). -/
def getKeySecondRelease (caller : Caller) (s : State) : State :=
  if s.ks.keyHeld then s else s.goto (.getKey caller (.gk7 0))

/-- GK7: one slot restored (R163, R165). -/
def getKeyRestore (caller : Caller) (i : Fin 6) (s : State) : State :=
  match nextSlot i with
  | some j => (s.setSlot i s.gk.saved[i]).goto (.getKey caller (.gk7 j))
  | none => (s.setSlot i s.gk.saved[i]).goto (.getKey caller .gk8)

/-- One micro-step of `GetKey` (R163). -/
def getKeyStep (caller : Caller) (p : GetKeyPhase) (s : State) : State :=
  match p with
  | .gk1 => getKeyPoll caller s
  | .gk2 => getKeyRelease caller s
  | .gk3Save i => getKeySave caller i s
  | .gk3Fill i => getKeyFill caller i s
  | .gk4 => getKeyShiftRelease caller s
  | .gk5 => getKeySecond caller s
  | .gk6 => getKeySecondRelease caller s
  | .gk7 i => getKeyRestore caller i s
  | .gk8 => getKeyReturn caller s.gk.m s

/-- `PEEK_KEY` (44_host_commands.md R203): completes in one micro-step. -/
def execPeekKey (s : State) : Host.Outcome State Fault Refusal :=
  accept s fun s => .next (s.respond (.datum (peekKey s)))

/-- `GET_KEY` (44_host_commands.md R204): accepted, the sequencer at the first phase; `getKeyStep` goes on. -/
def execGetKey (s : State) : Host.Outcome State Fault Refusal :=
  accept s fun s => .next (s.goto (.getKey .host .gk1))

end Sys2Proof.Machine
end

