-- ==== Sys2Proof/Machine/Emulator.lean ====
section
/-! DEFINITION. The Emulator Loop: `SUBLEQ`, the loop around it and the exit sequence (43_subleq_emulator.md). -/

namespace Sys2Proof.Machine

/-- E0: the program counter at START; the loop test finds it non-zero (R182). -/
def runStart (s : State) : State := (s.setPc Config.start).goto .e1

/-- E1: the first operand byte (R180). -/
def fetchA (s : State) : State :=
  { s with latch := { s.latch with a := memRead s (operandAddress s.pc) }, pc := nextPc s.pc, fg := .e2 }

/-- E2: the second operand byte (R180). -/
def fetchB (s : State) : State :=
  { s with latch := { s.latch with b := memRead s (operandAddress s.pc) }, pc := nextPc s.pc, fg := .e3 }

/-- E3: the third operand byte (R180). -/
def fetchC (s : State) : State :=
  { s with latch := { s.latch with c := memRead s (operandAddress s.pc) }, pc := nextPc s.pc, fg := .e4 }

/-- E4: both operands are read and subtracted (R180, R188; log 24). -/
def subtract (s : State) : State :=
  let vb := memRead s (operandAddress s.latch.b)
  let va := memRead s (operandAddress s.latch.a)
  { s with latch := { s.latch with result := difference vb va }, fg := .e5 }

/-- E5: the result is stored at b (R180). -/
def storeResult (s : State) : State := (memWrite s (operandAddress s.latch.b) s.latch.result).goto .e6

/-- E6: the first cancel check (R180, R184). -/
def firstCancelCheck (s : State) : State := if cancelObserved s then s.goto .x1 else s.goto .e7

/-- E7: the branch (R180, R189). -/
def branch (s : State) : State := (if branchTaken s.latch.result then s.setPc s.latch.c else s).goto .e8

/-- E8: the second cancel check (R180, R184). -/
def secondCancelCheck (s : State) : State := if cancelObserved s then s.goto .x1 else s.goto .e9

/-- E9: the loop test (R180, R183). -/
def loopTest (s : State) : State := if runGoesOn s.pc then s.goto .e1 else s.goto .x1

/-- X1: one evaluation of the poll for the release of any held key; then X2, `GetKey` (R186). -/
def exitRelease (s : State) : State := if s.ks.keyHeld then s else s.goto (.getKey .run .gk1)

/-- One foreground micro-step (00_scope.md R10, 10_state.md R25). An idle foreground does nothing. -/
def microStep (s : State) : State :=
  match s.fg with
  | .idle => s
  | .getKey caller p => getKeyStep caller p s
  | .e0 => runStart s
  | .e1 => fetchA s
  | .e2 => fetchB s
  | .e3 => fetchC s
  | .e4 => subtract s
  | .e5 => storeResult s
  | .e6 => firstCancelCheck s
  | .e7 => branch s
  | .e8 => secondCancelCheck s
  | .e9 => loopTest s
  | .x1 => exitRelease s

/-- E1 to E3 done: the three operand bytes latched, the program counter past them (R180). -/
def operandsFetched (a b c : Byte) (s : State) : State :=
  { s with latch := { s.latch with a := a, b := b, c := c }, pc := nextPc (nextPc (nextPc s.pc)), fg := .e4 }

/-- `SUBLEQ a, b, c` (R180): E1 to E9 with no tick between them, stopping at X1 where a cancel check fires (log 1). -/
def execSubleq (a b c : Byte) (s : State) : Host.Outcome State Fault Refusal :=
  let stored := storeResult (subtract (operandsFetched a b c s))
  let checked := firstCancelCheck stored
  if checked.fg = .x1 then .next checked
  else
    let again := secondCancelCheck (branch checked)
    if again.fg = .x1 then .next again else .next (loopTest again)

/-- `RUN` (44_host_commands.md R206): accepted, the sequencer at E0; `microStep` and `execSubleq` go on. -/
def execRun (s : State) : Host.Outcome State Fault Refusal :=
  accept s fun s => .next (s.goto .e0)

end Sys2Proof.Machine
end

