-- ==== Sys2Proof/Machine/Dispatch.lean ====
section
/-! DEFINITION. What each instruction does: one arm per constructor of Instr. -/

namespace Sys2Proof.Machine

def exec (i : Instr) (s : State) : Host.Outcome State Fault Refusal :=
  match i with
  | .subleq a b c => Sys2Proof.Machine.execSubleq a b c s
  | .read addr => Sys2Proof.Machine.execRead addr s
  | .write addr data => Sys2Proof.Machine.execWrite addr data s
  | .peekKey => Sys2Proof.Machine.execPeekKey s
  | .getKey => Sys2Proof.Machine.execGetKey s
  | .dbset slot data => Sys2Proof.Machine.execDbset slot data s
  | .run => Sys2Proof.Machine.execRun s

end Sys2Proof.Machine
end

