-- ==== Sys2Proof/Machine/Tick.lean ====
section
/-! DEFINITION. The tick context: the display multiplexer (40_display_multiplexer.md) and the keyboard scanner
(41_keyboard_scanner.md). -/

namespace Sys2Proof.Machine

/-- Step (a): no digit is enabled (R121). -/
def blankDigits (s : State) : State := { s with digitSel := none }

/-- Step (b): the current digit's slot selects the segment lines (R122). -/
def driveGlyph (s : State) : State := { s with segOut := glyph (s.slot s.currentDigit) }

/-- Step (c): the current digit is enabled (R123). -/
def enableDigit (s : State) : State := { s with digitSel := some s.currentDigit }

/-- Step (d): the digit cycler, modulo 6 (R124). -/
def advanceDigit (s : State) : State := { s with currentDigit := s.currentDigit + 1 }

/-- The rows that are pulled low, in a row value (R141). -/
def lowRows (rows : Rows) : List (Fin 4) :=
  [(0 : Fin 4), 1, 2, 3].filter (fun r => !rows.getLsbD r.val)

/-- The row in contact: exactly one row is low (R141). -/
def contact (rows : Rows) : Option (Fin 4) :=
  match lowRows rows with
  | [r] => some r
  | _ => none

/-- `ScanStep` on the Keyboard State (R146). -/
def scan (rows : Rows) (ks : KeyboardState) : KeyboardState :=
  match contact rows with
  | some r =>
    if ks.debounceLatch = false then { ks with activeRow := some r, debounceLatch := true }
    else if ks.keyHeld = false then
      { ks with activeRow := some r, currentCode := keyMatrix r ks.activeColumn, keyHeld := true }
    else { ks with activeRow := some r }
  | none =>
    { activeColumn := ks.activeColumn + 1, debounceLatch := false, keyHeld := false, activeRow := none
      currentCode := Config.sentinel }

/-- Step (e): the keyboard scan; the column lines change only on a tick without contact (R144, R146). -/
def scanStep (rows : Rows) (s : State) : State :=
  match contact rows with
  | some _ => { s with ks := scan rows s.ks }
  | none => { s with ks := scan rows s.ks, colDrive := (scan rows s.ks).activeColumn }

/-- `Tick(rows)` (R120): steps (a) to (e) in order, one atomic transition. -/
def tick (rows : Rows) (s : State) : State :=
  scanStep rows (advanceDigit (enableDigit (driveGlyph (blankDigits s))))

end Sys2Proof.Machine
end

