-- ==== Sys2Proof/Machine/Arrivals.lean ====
section
/-! DEFINITION. What each arrival does: a tick, a command word on the port, a reset, a move of the foreground
(00_scope.md R9, R10). -/

namespace Sys2Proof.Machine

/-- The instruction bytes at the program counter, through the same read as data (20_memory.md R80, 30_encoding.md
R106). -/
def fetchBytes (s : State) : List Byte :=
  [memRead s (operandAddress s.pc), memRead s (operandAddress (nextPc s.pc)),
    memRead s (operandAddress (nextPc (nextPc s.pc)))]

/-- What was decoded is executed, or refused by name (00_scope.md R13). -/
def execDecoded (d : Decoded) (s : State) : Host.Outcome State Fault Refusal :=
  match d with
  | .instr i => exec i s
  | .rejected e => .refused (.reservedEncoding e)

/-- The foreground proceeds undisturbed: a whole instruction where one begins (E1), one micro-step elsewhere (log 1). -/
def proceed (s : State) : Host.Outcome State Fault Refusal :=
  if s.fg = .e1 then execDecoded (decode (fetchBytes s)) s else .next (microStep s)

/-- One arrival handled. -/
def arrive (a : Arrival) (s : State) : Host.Outcome State Fault Refusal :=
  match a with
  | .tick rows => .next (tick rows s)
  | .command w => execDecoded (decodeCommand w) s
  | .reset mem0 db0 => .next (resetEvent mem0 db0 s)
  | .micro => .next (microStep s)
  | .proceed => proceed s

/-- The arrivals after the first. -/
def State.withArrivals (s : State) (rest : List Arrival) : State := { s with arrivals := rest }

/-- Where `withFetchWord` places an instruction: at the program counter when one is about to be fetched from plain
storage, else where every run begins (43_subleq_emulator.md R182; log 3). -/
def fetchPlace (s : State) : Byte :=
  if s.fg = .e1 ∧ 10 ≤ s.pc.toNat ∧ s.pc.toNat ≤ 253 then s.pc else Config.start

/-- Three bytes placed at the fetch place, the foreground about to fetch them (log 3). -/
def placeInstruction (a b c : Byte) (s : State) : State :=
  { s with
    pc := fetchPlace s
    fg := .e1
    mem := ((s.mem.write (fetchPlace s).toNat a).write ((fetchPlace s).toNat + 1) b).write ((fetchPlace s).toNat + 2) c
    arrivals := .proceed :: s.arrivals }

/-- A command word placed on the port, the foreground idle (log 3). -/
def placeCommand (w : CommandWord) (s : State) : State :=
  { s with fg := .idle, arrivals := .command w :: s.arrivals }

end Sys2Proof.Machine
end

