-- ==== Sys2Proof/Machine/Step.lean ====
section
/-! DEFINITION. One step of the core: the next arrival is handled; when none is left the foreground proceeds
(logs 1, 2). -/

namespace Sys2Proof.Machine

def step (s : State) : Host.Outcome State Fault Refusal :=
  match s.arrivals with
  | [] => proceed s
  | a :: rest => arrive a (s.withArrivals rest)

/-- `s` with an instruction placed where the very next step runs it: up to 24 bits are a `SUBLEQ` in memory, more
are a command word on the port (logs 3, 11). -/
def State.withFetchWord (s : State) (nbits w : Nat) : State :=
  if nbits ≤ 24 then
    placeInstruction (BitVec.ofNat 8 (w / 65536)) (BitVec.ofNat 8 (w / 256)) (BitVec.ofNat 8 w) s
  else placeCommand (BitVec.ofNat 27 w) s

end Sys2Proof.Machine
end

