-- ==== Sys2Proof/Safety.lean ====
section
/-! DEFINITION. What a sound state is, which state each context owns, and the terms the statements use. -/

namespace Sys2Proof.Machine

/-- The invariants of the Keyboard State (10_state.md R39, R40). -/
structure KeyboardState.Inv (ks : KeyboardState) : Prop where
  heldIsLatched : ks.keyHeld = true → ks.debounceLatch = true
  codeWhenHeld : ks.currentCode ≠ Config.sentinel ↔ ks.keyHeld = true
  codeIsPrimary : ks.currentCode = Config.sentinel ∨ ∃ r c, ks.currentCode = keyMatrix r c

/-- The outputs between ticks: nothing is lit before the first tick, and then the digit before the current one is
enabled and the segment lines carry what some slot value renders as: which one is not kept, since the slot may have
been written since the tick that sampled it (40_display_multiplexer.md R127). -/
def outputsConsistent (s : State) : Prop :=
  (s.digitSel = none ∧ s.segOut = .blank ∧ s.currentDigit = 0) ∨
    ∃ d : Fin 6, s.digitSel = some d ∧ s.currentDigit.val = (d.val + 1) % 6 ∧ ∃ v : Byte, s.segOut = glyph v

/-- All six slots hold the fill value (42_key_input.md R165). -/
def displayFilled (s : State) : Prop := ∀ i : Fin 6, s.db[i] = Config.shiftFill

/-- What each phase of the foreground relies on: an instruction never begins at address 0 (43_subleq_emulator.md R183),
a plain key is neither the sentinel nor shift, the slots before the current one are filled, the display is filled
while the second key is awaited, the mapped code is not the sentinel (42_key_input.md R163, R165, R168, R171). -/
def phaseSound (s : State) : Prop :=
  match s.fg with
  | .e1 => s.pc ≠ 0
  | .getKey _ .gk2 => s.gk.k ≠ Config.sentinel ∧ s.gk.k ≠ Config.shiftCode
  | .getKey _ (.gk3Fill i) => ∀ j : Fin 6, j < i → s.db[j] = Config.shiftFill
  | .getKey _ .gk4 => displayFilled s
  | .getKey _ .gk5 => displayFilled s
  | .getKey _ .gk6 => displayFilled s ∧ s.gk.m ≠ Config.sentinel
  | .getKey _ (.gk7 _) => s.gk.m ≠ Config.sentinel
  | .getKey _ .gk8 => s.gk.m ≠ Config.sentinel
  | _ => True

/-- The invariant every step keeps. -/
structure SoundState (s : State) : Prop where
  memCanonical : s.mem.wf
  keyboard : s.ks.Inv
  columnDriven : s.colDrive = s.ks.activeColumn
  outputs : outputsConsistent s
  phase : phaseSound s

/-- The state the tick context owns is the same in both (10_state.md R47). -/
structure TickStateKept (s t : State) : Prop where
  ks : t.ks = s.ks
  currentDigit : t.currentDigit = s.currentDigit
  digitSel : t.digitSel = s.digitSel
  segOut : t.segOut = s.segOut
  colDrive : t.colDrive = s.colDrive

/-- The state the foreground context owns is the same in both (10_state.md R47). -/
structure ForegroundStateKept (s t : State) : Prop where
  db : t.db = s.db
  mem : t.mem = s.mem
  pc : t.pc = s.pc
  latch : t.latch = s.latch
  fg : t.fg = s.fg
  gk : t.gk = s.gk
  response : t.response = s.response
  draws : t.draws = s.draws

/-- The slots an address reaches (20_memory.md R61). -/
def slotsOf (a : Address) : List (Fin 6) :=
  match backing a with
  | .plain => []
  | .slot i => [i]
  | .pair even odd => [even, odd]

/-- Two addresses that share no state element (20_memory.md R61, R71). -/
def Apart (x y : Address) : Prop := x ≠ y ∧ ∀ i ∈ slotsOf x, i ∉ slotsOf y

/-- The foreground state is Idle, Armed or Held in the words of 41_keyboard_scanner.md R140. -/
def KeyboardState.isIdle (ks : KeyboardState) : Prop := ks.debounceLatch = false ∧ ks.keyHeld = false

/-- Armed: a contact seen once (R140). -/
def KeyboardState.isArmed (ks : KeyboardState) : Prop := ks.debounceLatch = true ∧ ks.keyHeld = false

/-- Held: a code is latched (R140). -/
def KeyboardState.isHeld (ks : KeyboardState) : Prop := ks.debounceLatch = true ∧ ks.keyHeld = true

/-- The row value of the ideal keypad matrix (41_keyboard_scanner.md R152): row r is low exactly when a pressed key
connects it to the driven column. -/
def idealRows (pressed : Fin 4 → Fin 5 → Bool) (col : Fin 5) : Rows :=
  BitVec.ofNat 4 ((!pressed 0 col).toNat + 2 * (!pressed 1 col).toNat + 4 * (!pressed 2 col).toNat +
    8 * (!pressed 3 col).toNat)

/-- n ticks under the ideal keypad matrix with a fixed set of pressed keys. -/
def idealTicks (pressed : Fin 4 → Fin 5 → Bool) : Nat → State → State
  | 0, s => s
  | n + 1, s => idealTicks pressed n (tick (idealRows pressed s.colDrive) s)

/-- Exactly one key is down. -/
def onlyKey (r : Fin 4) (k : Fin 5) : Fin 4 → Fin 5 → Bool := fun r' k' => decide (r' = r ∧ k' = k)

/-- Arrivals that come from the host: a command or a reset. The others are ticks and moves of the foreground. -/
def Arrival.fromHost : Arrival → Bool
  | .tick _ => false
  | .command _ => true
  | .reset _ _ => true
  | .micro => false
  | .proceed => false

/-- The phases whose micro-step reads the Keyboard State (20_memory.md R83). -/
def Phase.readsKeyboard : Phase → Bool
  | .getKey _ .gk1 => true
  | .getKey _ .gk2 => true
  | .getKey _ .gk4 => true
  | .getKey _ .gk5 => true
  | .getKey _ .gk6 => true
  | .e6 => true
  | .e8 => true
  | .x1 => true
  | _ => false

/-- Foreground micro-steps with any number of ticks before each. -/
def interleaved (gaps : List (List Rows)) : List Arrival :=
  gaps.flatMap fun ticks => ticks.map Arrival.tick ++ [.micro]

/-- The byte `SUBLEQ a, b, c` stores (43_subleq_emulator.md R195): both reads in the state before it. -/
def subleqValue (a b : Byte) (s : State) : Byte :=
  BitVec.ofInt 8 (((memRead s (operandAddress b)).toNat : Int) - (memRead s (operandAddress a)).toNat)

/-- A run of the core from a state. -/
def runs (n : Nat) (s : State) : Host.Outcome State Fault Refusal := Host.Core.run Sys2Proof.core n s

end Sys2Proof.Machine
end

