-- ==== Sys2Proof/Certificates/Slice0/Obligations.lean ====
section
/-! DEFINITION. The statements for the provers. Each docstring names the rules of spec/ it formalises. -/

open Sys2Proof Sys2Proof.Machine

/-! Reset -/

/-- R45, R240: a reset arrival puts every element at its reset value, whatever the core was doing; memory and
display come up with the contents of the arrival (MEM0, DB0; a byte it does not list is 0, log 5). The zeros of pc, the operand latches and the
temporaries are the model's choice (log 4), and so are the cleared result of the port (log 7) and the arrivals and
the draw counter that stay (logs 17, 31). -/
def Obligations.ResetEventRestoresResetValues : Prop :=
  ∀ (mem0 : List Host.Cell) (db0 : Slots) (s : State) (rest : List Arrival),
    ∃ t, step (s.withArrivals (.reset mem0 db0 :: rest)) = .next t ∧
      t.ks.currentCode = 0xFF ∧ t.ks.activeColumn = 0 ∧ t.ks.debounceLatch = false ∧ t.ks.keyHeld = false ∧
      t.ks.activeRow = none ∧ t.currentDigit = 0 ∧ t.digitSel = none ∧ t.segOut = .blank ∧ t.colDrive = 0 ∧
      t.fg = .idle ∧ t.db = db0 ∧ t.pc = 0 ∧ t.latch = { a := 0, b := 0, c := 0, result := 0 } ∧
      t.gk = { saved := Vector.replicate 6 0, k := 0, d := 0, m := 0 } ∧ t.response = .nothing ∧
      t.arrivals = rest ∧ t.draws = s.draws ∧ t.mem.wf ∧
      ∀ x : Address, isPlain x.val = true →
        memRead t x = ((mem0.find? (fun c => c.1 == x.val)).map Prod.snd).getD 0

/-- The state after reset meets the invariant (R40, R45). -/
def Obligations.ResetMeetsInvariant : Prop := SoundState State.reset

/-! Memory and the display window -/

/-- R63: a read at 1..6 is the low nibble of the slot, in 0..15, and after `write(1, 0xA5)`, `read(1) == 0x5`. -/
def Obligations.WindowSlotReadIsLowNibble : Prop :=
  ∀ (s : State) (i : Fin 6) (a : Address), a.val = i.val + 1 →
    memRead s a = s.db[i] &&& 0xF ∧ (memRead s a).toNat ≤ 15 ∧ memRead (memWrite s 1 0xA5) 1 = 0x5

/-- R64: a read at 7 + j packs the low nibbles of slots 2j (low) and 2j + 1 (high). The symmetric form is the spec's
decision D12 (log 19). -/
def Obligations.PairReadJoinsLowNibbles : Prop :=
  ∀ (s : State) (j : Fin 3) (a : Address), a.val = 7 + j.val →
    (memRead s a).toNat =
      (s.db[2 * j.val + 1].toNat % 16) * 16 + s.db[2 * j.val].toNat % 16

/-- R66: a write at 1..6 stores the whole byte in the slot and changes nothing else; a read gives its low nibble; the
whole byte decides what the slot renders, so 0xA5 stored in slot 0 renders blank. -/
def Obligations.SlotWriteStoresWholeByte : Prop :=
  ∀ (s : State) (i : Fin 6) (a : Address) (v : Byte), a.val = i.val + 1 →
    (memWrite s a v).db[i] = v ∧ (∀ j : Fin 6, j ≠ i → (memWrite s a v).db[j] = s.db[j]) ∧
      memWrite s a v = { s with db := (memWrite s a v).db } ∧ memRead (memWrite s a v) a = v &&& 0xF ∧
      (∀ g : Fin 20, v.toNat = g.val → glyph ((memWrite s a v).db[i]) = .pattern (Config.seg g)) ∧
      (19 < v.toNat → glyph ((memWrite s a v).db[i]) = .blank) ∧
      (memWrite s 1 0xA5).db[0] = 0xA5 ∧ memRead (memWrite s 1 0xA5) 1 = 0x5 ∧
      glyph ((memWrite s 1 0xA5).db[0]) = .blank

/-- R67: a write at 7 + j stores the low nibble in slot 2j and the high nibble in slot 2j + 1, whole bytes with a
zero high nibble, and changes nothing else; both slots then render a hex digit; `write(7, 0x34)` gives 4 and 3. -/
def Obligations.PairWriteSplitsByte : Prop :=
  ∀ (s : State) (j : Fin 3) (a : Address) (v : Byte), a.val = 7 + j.val →
    (memWrite s a v).db[2 * j.val].toNat = v.toNat % 16 ∧ (memWrite s a v).db[2 * j.val + 1].toNat = v.toNat / 16 ∧
      (∀ k : Fin 6, k.val ≠ 2 * j.val → k.val ≠ 2 * j.val + 1 → (memWrite s a v).db[k] = s.db[k]) ∧
      memWrite s a v = { s with db := (memWrite s a v).db } ∧
      (∃ g : Fin 16, glyph ((memWrite s a v).db[2 * j.val]) = .pattern (Config.seg (g.castLE (by decide)))) ∧
      (∃ g : Fin 16, glyph ((memWrite s a v).db[2 * j.val + 1]) = .pattern (Config.seg (g.castLE (by decide)))) ∧
      (memWrite s 7 0x34).db[0] = 0x4 ∧ (memWrite s 7 0x34).db[1] = 0x3

/-- R65, R68: a read at 0 or 10..N-1 gives the stored byte; a write there stores the raw byte, a read returns it, and nothing else changes: no other
address of plain storage and no other element. -/
def Obligations.StorageWriteStoresRawByte : Prop :=
  ∀ (s : State) (a : Address) (v : Byte), (a.val = 0 ∨ 10 ≤ a.val) →
    memRead s a = s.mem.read a.val ∧ memRead (memWrite s a v) a = v ∧
      (∀ x : Address, x ≠ a → memRead (memWrite s a v) x = memRead s x) ∧
      memWrite s a v = { s with mem := (memWrite s a v).mem }

/-- R71: what a read gives after a write: v at plain storage and at a pair, the low nibble at a slot; across the
aliases of each pair, both ways. What a pair reads as is the spec's decision D12 (log 19). -/
def Obligations.ReadAfterWriteLaws : Prop :=
  ∀ (s : State) (a : Address) (v w : Byte),
    memRead (memWrite s a v) a = (if 1 ≤ a.val ∧ a.val ≤ 6 then v &&& 0xF else v) ∧
      ∀ (j : Fin 3) (p e o : Address), p.val = 7 + j.val → e.val = 1 + 2 * j.val → o.val = 2 + 2 * j.val →
        memRead (memWrite s p v) e = v &&& 0xF ∧ memRead (memWrite s p v) o = v >>> 4 ∧
          memRead (memWrite (memWrite s e v) o w) p = ((w &&& 0xF) <<< 4) ||| (v &&& 0xF)

/-- R61, R66 to R69, R71: a write leaves every address that shares no state element with it as it was. -/
def Obligations.WriteLeavesApartAddresses : Prop :=
  ∀ (s : State) (a x : Address) (v : Byte), Apart x a → memRead (memWrite s a v) x = memRead s x

/-! The display multiplexer -/

/-- R122: on a tick the segment lines are driven per the Segment Table when the current digit's slot is at most 19,
and blank above; the whole byte decides: 0x12 shows index 18 and 0x22 is blank, though both read back as 2. -/
def Obligations.TickLooksUpGlyph : Prop :=
  ∀ (s : State) (rows : Rows) (rest : List Arrival),
    ∃ t, step (s.withArrivals (.tick rows :: rest)) = .next t ∧
      (∀ g : Fin 20, s.db[s.currentDigit].toNat = g.val → t.segOut = .pattern (Config.seg g)) ∧
      (19 < s.db[s.currentDigit].toNat → t.segOut = .blank) ∧
      glyph 0x12 = .pattern (Config.seg 18) ∧ glyph 0x22 = .blank ∧
      (∀ g : Fin 20, SegOut.pattern (Config.seg g) ≠ .blank) ∧
      memRead (memWrite s 1 0x12) 1 = 2 ∧ memRead (memWrite s 1 0x22) 1 = 2

/-- R123, R124: the tick enables the digit that was current on entry, with its pattern, and advances the cycler by
one modulo 6, whatever the slot, the rows and the foreground; until the next tick or a reset nothing changes the
enabled digit, the segment lines or the cycler. -/
def Obligations.TickEnablesDigitAndAdvances : Prop :=
  (∀ (s : State) (rows : Rows) (rest : List Arrival),
    ∃ t, step (s.withArrivals (.tick rows :: rest)) = .next t ∧ t.digitSel = some s.currentDigit ∧
      t.segOut = glyph s.db[s.currentDigit] ∧ t.currentDigit.val = (s.currentDigit.val + 1) % 6) ∧
    ∀ s t : State, step s = .next t → (∀ rows, s.arrivals.head? ≠ some (.tick rows)) →
      (∀ mem0 db0, s.arrivals.head? ≠ some (.reset mem0 db0)) →
        t.digitSel = s.digitSel ∧ t.segOut = s.segOut ∧ t.currentDigit = s.currentDigit

/-- R128: over any six ticks the k-th enables digit (current + k) mod 6, and the cycler is back where it was; so
every digit is enabled exactly once. -/
def Obligations.SixTicksEnableEveryDigitOnce : Prop :=
  ∀ (s : State) (rows : Fin 6 → Rows) (rest : List Arrival) (d : Fin 6),
    ∃ k : Fin 6, ∀ k' : Fin 6,
      (∃ t, runs (k'.val + 1) (s.withArrivals ((List.ofFn rows).map Arrival.tick ++ rest)) = .next t ∧
        t.digitSel = some (s.currentDigit + k') ∧ (t.digitSel = some d ↔ k' = k) ∧
        (k'.val = 5 → t.currentDigit = s.currentDigit))

/-- R28, R75: of the foreground's state a tick reads one slot only: two states that agree on the tick-owned state
and on the current digit's slot agree on the tick-owned state after the tick. -/
def Obligations.TickReadsOneSlotOnly : Prop :=
  ∀ (s s' : State) (rows : Rows), TickStateKept s s' → s'.db[s.currentDigit] = s.db[s.currentDigit] →
    TickStateKept (tick rows s) (tick rows s')

/-! The keyboard scanner -/

/-- R141: the probe records the one low row and sees a contact exactly when one row is low: 0b1110 row 0, 0b1101
row 1, 0b1011 row 2, 0b0111 row 3, and no contact on every other value. -/
def Obligations.ContactIsExactlyOneLowRow : Prop :=
  ∀ (s : State) (rows : Rows) (rest : List Arrival),
    ∃ t, step (s.withArrivals (.tick rows :: rest)) = .next t ∧
      (∀ r : Fin 4, t.ks.activeRow = some r ↔ ∀ q : Fin 4, rows.getLsbD q.val = false ↔ q = r) ∧
      (∀ r : Fin 4, contact rows = some r ↔ t.ks.activeRow = some r) ∧
      contact 0b1110 = some 0 ∧ contact 0b1101 = some 1 ∧ contact 0b1011 = some 2 ∧ contact 0b0111 = some 3 ∧
      (contact rows = none ↔ rows ≠ 0b1110 ∧ rows ≠ 0b1101 ∧ rows ≠ 0b1011 ∧ rows ≠ 0b0111)

/-- R142: a contact when the latch is clear sets it and does nothing more: code, held flag and column stay. -/
def Obligations.FirstContactArms : Prop :=
  ∀ (s : State) (rows : Rows) (r : Fin 4) (rest : List Arrival),
    contact rows = some r → s.ks.debounceLatch = false →
      ∃ t, step (s.withArrivals (.tick rows :: rest)) = .next t ∧
        t.ks = { s.ks with debounceLatch := true, activeRow := some r } ∧ t.colDrive = s.colDrive

/-- R143: a contact when the latch is set latches the matrix entry of this tick's row and the active column and
sets the held flag, unless a key is already held, when only the recorded row changes; the column never advances. -/
def Obligations.SecondContactLatchesCode : Prop :=
  ∀ (s : State) (rows : Rows) (r : Fin 4) (rest : List Arrival),
    contact rows = some r → s.ks.debounceLatch = true →
      ∃ t, step (s.withArrivals (.tick rows :: rest)) = .next t ∧ t.colDrive = s.colDrive ∧
        (s.ks.keyHeld = false →
          t.ks = { s.ks with currentCode := keyMatrix r s.ks.activeColumn, keyHeld := true, activeRow := some r }) ∧
        (s.ks.keyHeld = true → t.ks = { s.ks with activeRow := some r })

/-- R144: a tick without contact clears the latch, the code and the held flag from any state, advances the column
by one modulo 5 and drives the new column. -/
def Obligations.NoContactReleasesAndAdvancesColumn : Prop :=
  ∀ (s : State) (rows : Rows) (rest : List Arrival), contact rows = none →
    ∃ t, step (s.withArrivals (.tick rows :: rest)) = .next t ∧ t.ks.debounceLatch = false ∧
      t.ks.currentCode = 0xFF ∧ t.ks.keyHeld = false ∧ t.ks.activeRow = none ∧
      t.ks.activeColumn.val = (s.ks.activeColumn.val + 1) % 5 ∧ t.colDrive = t.ks.activeColumn

/-- R148: the active column changes on a tick if and only if that tick saw no contact. -/
def Obligations.ColumnParksDuringContact : Prop :=
  ∀ (s : State) (rows : Rows), (tick rows s).ks.activeColumn ≠ s.ks.activeColumn ↔ contact rows = none

/-- R149: from Idle, contact ticks (two or more) latch the matrix entry of the second tick's row in the parked
column, and hold it with the column unchanged for as long as they go on, until a tick without contact; one contact tick and then none latch
nothing. -/
def Obligations.DebounceNeedsTwoContacts : Prop :=
  ∀ (s : State) (first second last : Rows) (more : List Rows) (r1 r2 : Fin 4) (rest : List Arrival),
    s.ks.isIdle → contact first = some r1 → contact second = some r2 → (∀ rows ∈ more, contact rows ≠ none) →
    contact last = none →
      (∃ t, runs (more.length + 2)
          (s.withArrivals (.tick first :: .tick second :: (more.map Arrival.tick ++ rest))) = .next t ∧
        t.ks.isHeld ∧ t.ks.currentCode = keyMatrix r2 s.ks.activeColumn ∧
        t.ks.activeColumn = s.ks.activeColumn ∧ t.colDrive = s.colDrive ∧
        ∃ w, step (t.withArrivals (.tick last :: rest)) = .next w ∧ w.ks.isIdle ∧ w.ks.currentCode = 0xFF) ∧
      ∃ u v, runs 1 (s.withArrivals (.tick first :: .tick last :: rest)) = .next u ∧ step u = .next v ∧
        u.ks.isArmed ∧ u.ks.currentCode = s.ks.currentCode ∧ v.ks.isIdle ∧ v.ks.currentCode = 0xFF

/-- R151, R152: under the ideal matrix, from Idle with column x driven, one key down at (r, k) is latched at tick
(k - x) mod 5 + 2 and not before, the scanner parked on column k. -/
def Obligations.SteadyPressLatencyIsTwoToSixTicks : Prop :=
  ∀ (s : State) (r : Fin 4) (k : Fin 5), SoundState s → s.ks.isIdle →
    (∀ n : Nat, n < (k - s.ks.activeColumn).val + 2 → (idealTicks (onlyKey r k) n s).ks.currentCode = 0xFF) ∧
      ∀ n : Nat, (k - s.ks.activeColumn).val + 2 ≤ n →
        (idealTicks (onlyKey r k) n s).ks.currentCode = keyMatrix r k ∧
          (idealTicks (onlyKey r k) n s).ks.activeColumn = k ∧ (idealTicks (onlyKey r k) n s).ks.isHeld

/-! Key input -/

/-- R203, R160: `PEEK_KEY` answers the latched code, the sentinel included, and changes nothing but the port's
result. -/
def Obligations.PeekKeyAnswersLatchedCode : Prop :=
  ∀ s : State, s.fg = .idle → exec .peekKey s = .next { s with response := .datum s.ks.currentCode }

/-- R204, R200: `GET_KEY` begins `GetKey` at GK1 with no result yet and changes nothing else. That the port shows
no result until then is the model's choice (log 7). -/
def Obligations.GetKeyStartsPolling : Prop :=
  ∀ s : State, s.fg = .idle →
    exec .getKey s = .next { s with fg := .getKey .host .gk1, response := .nothing }

/-- R163 (GK1, GK2), R164: a poll at GK1 waits on the sentinel, goes to the shift path on 0x4F and else to GK2; GK2
waits while a key is held and then returns the code GK1 read, to the host, or to nobody after a run. That the return
and, after a run, X3 fall in the same micro-step as that last evaluation is the model's reading (log 21). -/
def Obligations.GetKeyPollsAndReturnsCode : Prop :=
  ∀ (s : State) (caller : Caller),
    (s.fg = .getKey caller .gk1 →
      (s.ks.currentCode = 0xFF → (microStep s).fg = .getKey caller .gk1) ∧
        (s.ks.currentCode = 0x4F → (microStep s).fg = .getKey caller (.gk3Save 0)) ∧
        (s.ks.currentCode ≠ 0xFF → s.ks.currentCode ≠ 0x4F →
          microStep s = { s with fg := .getKey caller .gk2, gk := { s.gk with k := s.ks.currentCode } })) ∧
      (s.fg = .getKey caller .gk2 →
        (s.ks.keyHeld = true → microStep s = s) ∧
          (s.ks.keyHeld = false →
            microStep s =
              { s with fg := .idle, response := if caller = .host then .datum s.gk.k else .done }))

/-- R163, R164: from GK1 with a plain code latched, the release between the two polls makes the command answer that
code; memory, display and program counter are untouched. That it returns in the evaluation that sees the release is
the model's reading (log 21). -/
def Obligations.GetKeyPlainKeyAnswersAfterRelease : Prop :=
  ∀ (s : State) (rows : Rows) (rest : List Arrival), s.fg = .idle → s.ks.currentCode ≠ 0xFF →
    s.ks.currentCode ≠ 0x4F → contact rows = none →
      ∃ t, runs 4 (s.withArrivals (.command 0x3000000 :: .micro :: .tick rows :: .micro :: rest)) = .next t ∧
        t.fg = .idle ∧ t.response = .datum s.ks.currentCode ∧ t.db = s.db ∧ t.mem = s.mem ∧ t.pc = s.pc ∧
        t.arrivals = rest

/-- R163, R165, R166, R172: the whole shift sequence, for either caller. With shift latched at GK1, thirteen
micro-steps save the display and fill it with the dash (19 by the spec's decision D8, log 16); after the release, a
second key of hex code d and its release, `GetKey` returns, the host is answered SK[d] (after a run the code is
discarded and the run completes in the same micro-step, log 21), and the display is as it was found. -/
def Obligations.ShiftSequenceAnswersSecondaryCode : Prop :=
  ∀ (s : State) (caller : Caller) (off press : Rows) (r : Fin 4) (d : Fin 16) (rest : List Arrival),
    s.fg = .getKey caller .gk1 → s.ks.currentCode = 0x4F → contact off = none → contact press = some r →
    keyMatrix r (s.ks.activeColumn + 1) = BitVec.ofNat 8 d.val →
      (∃ u, runs 13 (s.withArrivals (List.replicate 13 .micro ++ rest)) = .next u ∧ displayFilled u ∧
        u.gk.saved = s.db) ∧
      ∃ t, runs 27 (s.withArrivals (List.replicate 13 .micro ++
            (.tick off :: .micro :: .tick press :: .tick press :: .micro :: .tick off :: .micro ::
              (List.replicate 7 .micro ++ rest)))) = .next t ∧
        t.fg = .idle ∧ t.response = (if caller = .host then .datum (secondaryKey d) else .done) ∧ t.db = s.db ∧
        t.mem = s.mem ∧ t.arrivals = rest

/-- R43(c), R44, R166, R167: the secondary map gives 0 for d in 0..11, one of 0x5F, 0x6F, 0x7F, 0x8F for 12..15
with no draw, and for any other code the next draw, the count of draws one up; never the sentinel. Which code each entry holds and what is
drawn are free values (logs 14, 17). -/
def Obligations.SecondaryMapNeverGivesSentinel : Prop :=
  ∀ (d : Byte) (n : Nat),
    (secondaryMap d n).1 ≠ 0xFF ∧
      (d.toNat < 12 → secondaryMap d n = (0, n)) ∧
      (12 ≤ d.toNat → d.toNat < 16 →
        (secondaryMap d n).2 = n ∧ (secondaryMap d n).1 ∈ [(0x5F : Byte), 0x6F, 0x7F, 0x8F]) ∧
      (16 ≤ d.toNat → secondaryMap d n = (drawnCode n, n + 1))

/-- R163, R168: a `GET_KEY` that completes never answers the sentinel. -/
def Obligations.GetKeyNeverAnswersSentinel : Prop :=
  ∀ (s t : State) (p : GetKeyPhase), SoundState s → s.fg = .getKey .host p → step s = .next t → t.fg = .idle →
    (∀ mem0 db0, s.arrivals.head? ≠ some (.reset mem0 db0)) → ∃ v, t.response = .datum v ∧ v ≠ 0xFF

/-- R168: however long it takes and whatever ticks fall between its micro-steps, `GetKey` leaves the display
exactly as it found it, and memory, program counter and operand latches untouched. -/
def Obligations.GetKeyLeavesDisplayAsFound : Prop :=
  ∀ (n : Nat) (s t : State) (caller : Caller), s.fg = .getKey caller .gk1 →
    (∀ x ∈ s.arrivals, x.fromHost = false) → runs n s = .next t → t.fg = .idle →
      t.db = s.db ∧ t.mem = s.mem ∧ t.pc = s.pc ∧ t.latch = s.latch

/-- R169: there is no timeout. GK1 and GK5 poll on while no key is latched and no tick sees a contact; GK2, GK4 and
GK6 poll on while a key is held and every tick sees a contact. -/
def Obligations.GetKeyHasNoTimeout : Prop :=
  ∀ (n : Nat) (s t : State) (caller : Caller) (p : GetKeyPhase), s.fg = .getKey caller p → runs n s = .next t →
    (∀ x ∈ s.arrivals, x.fromHost = false) →
      ((p = .gk1 ∨ p = .gk5) → s.ks.currentCode = 0xFF →
        (∀ rows, Arrival.tick rows ∈ s.arrivals → contact rows = none) → t.fg = .getKey caller p) ∧
      ((p = .gk2 ∨ p = .gk4 ∨ p = .gk6) → s.ks.keyHeld = true →
        (∀ rows, Arrival.tick rows ∈ s.arrivals → contact rows ≠ none) → t.fg = .getKey caller p)

/-! The emulated machine -/

/-- R195: with no cancel code latched, `SUBLEQ a, b, c` stores (byte at b minus byte at a) mod 256 at b, goes to c
exactly when that is 0 and past its three bytes otherwise, leaves the loop exactly when the new program counter is
0, and changes nothing else. -/
def Obligations.SubleqStoresDifferenceAndBranches : Prop :=
  ∀ (a b c : Byte) (s : State), (s.ks.currentCode ≠ cancelCode ∨ s.ks.currentCode = 0xFF) →
    exec (.subleq a b c) s =
      .next
        { memWrite s (operandAddress b) (subleqValue a b s) with
          latch := { a := a, b := b, c := c, result := subleqValue a b s }
          pc := if subleqValue a b s = 0 then c else s.pc + 3
          fg := if (if subleqValue a b s = 0 then c else s.pc + 3) = 0 then .x1 else .e1 }

/-- R184, R197, R223(iv): with the cancel code latched the store has happened, the branch has not, and the run
leaves for X1 within this one instruction; each of the two checks, E6 and E8, leaves for X1 when it sees the cancel
code, and changes nothing but the phase. A check that sees another code goes on, to E7 and to E9. -/
def Obligations.SubleqCancelledKeepsItsStore : Prop :=
  ∀ s : State,
    (s.ks.currentCode = cancelCode →
      (∀ a b c : Byte,
        exec (.subleq a b c) s =
          .next
            { memWrite s (operandAddress b) (subleqValue a b s) with
              latch := { a := a, b := b, c := c, result := subleqValue a b s }
              pc := s.pc + 3
              fg := .x1 }) ∧
        (s.fg = .e6 ∨ s.fg = .e8 → microStep s = { s with fg := .x1 })) ∧
      (s.ks.currentCode ≠ cancelCode →
        (s.fg = .e6 → microStep s = { s with fg := .e7 }) ∧ (s.fg = .e8 → microStep s = { s with fg := .e9 }))

/-- R47, R180, R195: what `SUBLEQ` leaves unchanged: all tick-owned state, the temporaries of `GetKey`, the port's
result, every address that shares no element with b, and every slot b does not reach. -/
def Obligations.SubleqFrame : Prop :=
  ∀ (a b c : Byte) (s t : State), exec (.subleq a b c) s = .next t →
    TickStateKept s t ∧ t.gk = s.gk ∧ t.response = s.response ∧ t.arrivals = s.arrivals ∧ t.draws = s.draws ∧
      (∀ x : Address, Apart x (operandAddress b) → memRead t x = memRead s x) ∧
      ∀ i : Fin 6, i ∉ slotsOf (operandAddress b) → t.db[i] = s.db[i]

/-- R188: the subtraction is modulo 256, with no saturation, and is zero exactly when the two bytes are equal; the
rule's table of cases. -/
def Obligations.SubtractionWrapsModulo256 : Prop :=
  ∀ vb va : Byte,
    ((difference vb va).toNat : Int) = ((vb.toNat : Int) - va.toNat) % 256 ∧
      (va.toNat ≤ vb.toNat → (difference vb va).toNat = vb.toNat - va.toNat) ∧
      (vb.toNat < va.toNat → (difference vb va).toNat + va.toNat = vb.toNat + 256) ∧
      (difference vb va = 0 ↔ vb = va) ∧
      difference 5 5 = 0 ∧ difference 10 3 = 7 ∧ difference 3 10 = 249 ∧ difference 0 0 = 0 ∧
      difference 0 1 = 255 ∧ difference 0 255 = 1 ∧ difference 255 0 = 255 ∧ difference 255 255 = 0 ∧
      difference 128 128 = 0 ∧ difference 127 128 = 255 ∧ difference 128 1 = 127

/-- R191(i): with a = b the cell is cleared (the whole slot at 1..6, both slots at 7..9) and the branch is taken. -/
def Obligations.SameCellClearsAndBranches : Prop :=
  ∀ (a c : Byte) (s : State), s.ks.currentCode = 0xFF →
    ∃ t, exec (.subleq a a c) s = .next t ∧ t.pc = c ∧ memRead t (operandAddress a) = 0 ∧
      ∀ i ∈ slotsOf (operandAddress a), t.db[i] = 0

/-- R191(ii), R80: an instruction that stores 0 over its own third byte still branches to the byte it fetched, and
the next fetch there sees the 0. -/
def Obligations.SelfModificationUsesFetchedTarget : Prop :=
  ∀ (s : State) (a b c : Byte), s.fg = .e1 → s.arrivals = [] → s.ks.currentCode = 0xFF → fetchBytes s = [a, b, c] →
    b = s.pc + 2 → subleqValue a b s = 0 →
      ∃ t, step s = .next t ∧ t.pc = c ∧ memRead t (operandAddress (s.pc + 2)) = 0

/-- R192 (decision D14, log 18): without a branch an instruction at 253 ends the run, one at 254 goes on at 1 and
one at 255 at 2. -/
def Obligations.FallThroughWrapsAtTheTop : Prop :=
  ∀ (a b c : Byte) (s : State), s.ks.currentCode = 0xFF → subleqValue a b s ≠ 0 →
    (s.pc = 253 → ∃ t, exec (.subleq a b c) s = .next t ∧ t.pc = 0 ∧ t.fg = .x1) ∧
      (s.pc = 254 → ∃ t, exec (.subleq a b c) s = .next t ∧ t.pc = 1 ∧ t.fg = .e1) ∧
      (s.pc = 255 → ∃ t, exec (.subleq a b c) s = .next t ∧ t.pc = 2 ∧ t.fg = .e1)

/-- R180, R195: the instruction as one step is the micro-steps E1 to E9 in order (E1 to E6 when a cancel fires). -/
def Obligations.MicroStepsComposeToInstruction : Prop :=
  ∀ (s : State) (a b c : Byte) (rest : List Arrival), s.fg = .e1 → fetchBytes s = [a, b, c] →
    (cancelObserved s = false →
      runs 9 (s.withArrivals (List.replicate 9 .micro ++ rest)) = exec (.subleq a b c) (s.withArrivals rest)) ∧
      (cancelObserved s = true →
        runs 6 (s.withArrivals (List.replicate 6 .micro ++ rest)) = exec (.subleq a b c) (s.withArrivals rest))

/-- R82, R83, R195: whatever ticks fall between the micro-steps of an instruction, memory and display end as the
instruction alone leaves them, and where no cancel check fired the program counter and the latches too. -/
def Obligations.TicksCannotDisturbInstruction : Prop :=
  ∀ (s : State) (a b c : Byte) (gaps : List (List Rows)) (rest : List Arrival), gaps.length = 8 → s.fg = .e1 →
    fetchBytes s = [a, b, c] →
      ∃ t, runs (interleaved gaps).length (s.withArrivals (interleaved gaps ++ rest)) = .next t ∧
        t.mem = (memWrite s (operandAddress b) (subleqValue a b s)).mem ∧
        t.db = (memWrite s (operandAddress b) (subleqValue a b s)).db ∧ t.arrivals = rest ∧
        (t.fg = .e9 →
          t.pc = (if subleqValue a b s = 0 then c else s.pc + 3) ∧
            t.latch = { a := a, b := b, c := c, result := subleqValue a b s })

/-- R83: a tick and a foreground micro-step that neither reads the Keyboard State nor changes the current digit's
slot commute. -/
def Obligations.TickAndMicroStepCommute : Prop :=
  ∀ (s : State) (rows : Rows), s.fg.readsKeyboard = false →
    (microStep s).db[s.currentDigit] = s.db[s.currentDigit] →
      microStep (tick rows s) = tick rows (microStep s)

/-- R194, R195: the program cannot read the keyboard: two states that differ only in the Keyboard State, no cancel
code in either, run the instruction alike. -/
def Obligations.KeyboardInvisibleToInstruction : Prop :=
  ∀ (a b c : Byte) (s : State) (ks : KeyboardState), isCancel s.ks.currentCode = false →
    isCancel ks.currentCode = false →
      ∃ t, exec (.subleq a b c) s = .next t ∧ exec (.subleq a b c) { s with ks := ks } = .next { t with ks := ks }

/-- R206, R182: an accepted `RUN` loads 10 into the program counter and goes to the first instruction; nothing else
is initialised. That acceptance clears the port's result is the model's choice (log 7). -/
def Obligations.RunStartsAtTen : Prop :=
  ∀ (s : State) (rest : List Arrival), s.fg = .idle →
    exec .run s = .next { s with fg := .e0, response := .nothing } ∧
      runs 2 (s.withArrivals (.command 0x5000000 :: .micro :: rest)) =
        .next { s with pc := 10, fg := .e1, response := .nothing, arrivals := rest }

/-- R183, R186: the loop test leaves for X1 exactly when the program counter is 0; X1 waits while a key is held and
then calls `GetKey`; the `GetKey` of a run discards its code and completes the command. That GK8's return and X3 are
one micro-step is the model's reading (log 21). -/
def Obligations.LoopEndsAtZeroAndAwaitsAcknowledgement : Prop :=
  ∀ s : State,
    (s.fg = .e9 → microStep s = { s with fg := if s.pc = 0 then .x1 else .e1 }) ∧
      (s.fg = .x1 → microStep s = { s with fg := if s.ks.keyHeld = true then .x1 else .getKey .run .gk1 }) ∧
      (s.fg = .getKey .run .gk8 → microStep s = { s with fg := .idle, response := .done })

/-- R258: from the moment the loop has left for X1, memory never changes while the host sends nothing, and the
display is the same again when the command completes. -/
def Obligations.ProgramResultStaysAfterExit : Prop :=
  ∀ (n : Nat) (s t : State), s.fg = .x1 → (∀ x ∈ s.arrivals, x.fromHost = false) → runs n s = .next t →
    t.mem = s.mem ∧ (t.fg = .idle → t.db = s.db)

/-- R206, R182, R186, R195: a whole run. From an idle core with no key down, `RUN` of a program whose first
instruction subtracts equal bytes with target 0 halts after it, waits for a key other than shift, and completes on
the release, with the one store done and nothing else in memory or display changed. That it completes in the step
of the last poll, X3 included, is the model's reading (log 21). -/
def Obligations.RunOfHaltingProgramCompletes : Prop :=
  ∀ (s : State) (a b : Byte) (press off : Rows) (r : Fin 4) (rest : List Arrival), s.fg = .idle →
    s.ks.isIdle → s.ks.currentCode = 0xFF → fetchBytes { s with pc := 10 } = [a, b, 0] → subleqValue a b s = 0 →
    contact press = some r → keyMatrix r s.ks.activeColumn ≠ 0x4F → contact off = none →
      ∃ t, runs 9 (s.withArrivals (.command 0x5000000 :: .micro :: .proceed :: .micro :: .tick press :: .tick press ::
            .micro :: .tick off :: .micro :: rest)) = .next t ∧
        t.fg = .idle ∧ t.response = .done ∧ t.arrivals = rest ∧ memRead t (operandAddress b) = 0 ∧
        t.mem = (memWrite s (operandAddress b) 0).mem ∧ t.db = (memWrite s (operandAddress b) 0).db

/-! Host commands -/

/-- R201: `READ addr` answers the byte at addr and changes no other state, or reports AddressOutOfRange for
1024..65535; with slot 0 at 0xA5, `READ 1` answers 5. -/
def Obligations.ReadAnswersByteOrReportsOutOfRange : Prop :=
  ∀ (s : State) (addr : HostAddr), s.fg = .idle →
    (∀ a : Address, addr.toNat = a.val → exec (.read addr) s = .next { s with response := .datum (memRead s a) }) ∧
      (1024 ≤ addr.toNat → exec (.read addr) s = .fault (.addressOutOfRange addr)) ∧
      (s.db[0] = 0xA5 → exec (.read 1) s = .next { s with response := .datum 5 })

/-- R202: `WRITE addr, data` writes the byte, or reports AddressOutOfRange for 1024..65535 with no state change;
`WRITE 7, 0x34` sets slots 0 and 1 to 4 and 3. -/
def Obligations.WriteStoresByteOrReportsOutOfRange : Prop :=
  ∀ (s : State) (addr : HostAddr) (data : Byte), s.fg = .idle →
    (∀ a : Address, addr.toNat = a.val →
      exec (.write addr data) s = .next { memWrite s a data with response := .done }) ∧
      (1024 ≤ addr.toNat → exec (.write addr data) s = .fault (.addressOutOfRange addr)) ∧
      ∃ t, exec (.write 7 0x34) s = .next t ∧ t.db[0] = 4 ∧ t.db[1] = 3

/-- R205: `DBSET slot, data` stores the whole byte in the slot, nothing else changes, and it differs in nothing from
`WRITE slot+1, data`; slots 6 and 7 are refused, the spec's decision D18 (R108; log 10). -/
def Obligations.DbsetStoresWholeSlotLikeWrite : Prop :=
  ∀ (s : State) (slot : BitVec 3) (data : Byte), s.fg = .idle →
    (∀ i : Fin 6, slot.toNat = i.val →
      exec (.dbset slot data) s = .next { s with db := s.db.set i data, response := .done } ∧
        exec (.dbset slot data) s = exec (.write (slot.setWidth 16 + 1) data) s) ∧
      (6 ≤ slot.toNat → exec (.dbset slot data) s = .refused (.reservedSlot slot))

/-- R47, R200: what the host commands leave unchanged: tick-owned state, program counter, operand latches,
temporaries; a command that stores nothing leaves memory and display alone, `WRITE` every address that shares no
element with its own, `DBSET` memory and every other slot. -/
def Obligations.HostCommandsFrame : Prop :=
  ∀ (i : Instr) (s t : State), (∀ a b c, i ≠ .subleq a b c) → exec i s = .next t →
    TickStateKept s t ∧ t.pc = s.pc ∧ t.latch = s.latch ∧ t.gk = s.gk ∧ t.arrivals = s.arrivals ∧
      t.draws = s.draws ∧
      ((∀ addr data, i ≠ .write addr data) → (∀ slot data, i ≠ .dbset slot data) →
        t.db = s.db ∧ t.mem = s.mem ∧ ∀ x : Address, memRead t x = memRead s x) ∧
      (∀ addr data, i = .write addr data →
        ∀ a x : Address, resolveAddress addr = some a → Apart x a → memRead t x = memRead s x) ∧
      (∀ slot data, i = .dbset slot data →
        t.mem = s.mem ∧ ∀ j : Fin 6, slotIndex slot ≠ some j → t.db[j] = s.db[j])

/-- R200: a command executed while another operation is in progress is refused, and so is one offered on the port; a
reserved word offered then is refused as reserved (R108). Both refusals are decisions of the spec, D30 and D18
(log 10). -/
def Obligations.CommandsRefusedWhileBusy : Prop :=
  ∀ s : State, s.fg ≠ .idle →
    (∀ i : Instr, (∀ a b c, i ≠ .subleq a b c) → exec i s = .refused .busy) ∧
      ∀ (w : CommandWord) (rest : List Arrival),
        (∀ i, decodeCommand w = .instr i → step (s.withArrivals (.command w :: rest)) = .refused .busy) ∧
          ∀ e, decodeCommand w = .rejected e →
            step (s.withArrivals (.command w :: rest)) = .refused (.reservedEncoding e)

/-- R108: codes 0b110 and 0b111, and `DBSET` with slot 6 or 7, are refused whatever their other bits (the spec's decision
D18, log 10). -/
def Obligations.ReservedCommandWordsRefused : Prop :=
  ∀ (s : State) (rest : List Arrival) (addr : HostAddr) (data : Byte),
    step (s.withArrivals (.command (commandWord 6 addr data) :: rest)) =
        .refused (.reservedEncoding (.reservedCode 6)) ∧
      step (s.withArrivals (.command (commandWord 7 addr data) :: rest)) =
        .refused (.reservedEncoding (.reservedCode 7)) ∧
      (6 ≤ addr.toNat % 8 →
        step (s.withArrivals (.command (commandWord 4 addr data) :: rest)) =
          .refused (.reservedEncoding (.reservedSlot (addr.setWidth 3))))

/-! The step -/

/-- R13, R70, R220: only a command offered by the host can stop the core: a fault is AddressOutOfRange of an idle
core's `READ` or `WRITE` at 1024 or above; ticks, resets and the emulated program always go on. -/
def Obligations.OnlyHostCommandsStop : Prop :=
  ∀ s : State,
    (∀ f, step s = .fault f → ∃ w rest, s.arrivals = .command w :: rest ∧ s.fg = .idle ∧
      f = .addressOutOfRange (commandAddr w) ∧ 1024 ≤ (commandAddr w).toNat ∧ (commandCode w).toNat ≤ 1) ∧
      (∀ r, step s = .refused r → ∃ w rest, s.arrivals = .command w :: rest)

/-- When an instruction is about to be fetched and no arrival intervenes, the step executes what the three bytes at
the program counter decode to (R80, R100, R103). -/
def Obligations.StepRunsDecodedInstruction : Prop :=
  ∀ (s : State) (i : Instr) (rest : List Arrival), s.fg = .e1 → decode (fetchBytes s) = .instr i →
    step (s.withArrivals []) = exec i (s.withArrivals []) ∧
      step (s.withArrivals (.proceed :: rest)) = exec i (s.withArrivals rest)

/-- When the host offers a command word that decodes, the step executes it (R107, R200). -/
def Obligations.StepRunsOfferedCommand : Prop :=
  ∀ (s : State) (w : CommandWord) (i : Instr) (rest : List Arrival), decodeCommand w = .instr i →
    step (s.withArrivals (.command w :: rest)) = exec i (s.withArrivals rest)

/-- R47, R120, R224: a tick changes no foreground-owned state. -/
def Obligations.TickChangesNoForegroundState : Prop :=
  ∀ (s : State) (rows : Rows) (rest : List Arrival),
    ∃ t, step (s.withArrivals (.tick rows :: rest)) = .next t ∧ ForegroundStateKept s t ∧ t.arrivals = rest

/-- R47: no move of the foreground and no host command changes tick-owned state. -/
def Obligations.ForegroundChangesNoTickState : Prop :=
  ∀ s t : State, step s = .next t → (∀ rows, s.arrivals.head? ≠ some (.tick rows)) →
    (∀ mem0 db0, s.arrivals.head? ≠ some (.reset mem0 db0)) → TickStateKept s t

/-- R39, R40, R127, R183, R168: every step keeps the invariant: memory canonical, the Keyboard State's four
invariants, the driven column the active one, after the first tick the digit before the current one enabled with the
pattern of some slot value on the segment lines, no instruction begun at 0, the display filled while the second key
is awaited, no sentinel about to be returned. -/
def Obligations.StepKeepsInvariant : Prop :=
  ∀ s t : State, SoundState s → step s = .next t → SoundState t

/-! Encoding -/

/-- R100, R101, R107: decoding the bytes of a well-formed instruction gives it back, every operand at every value. -/
def Obligations.DecodeOfEncodeIsIdentity : Prop :=
  ∀ i : Instr, i.wellFormed = true → decode (encode i) = .instr i

/-- R104, R108: whatever the decoder accepts is well formed; any three bytes are accepted, as `SUBLEQ` with those
operands. -/
def Obligations.DecodedInstructionsAreWellFormed : Prop :=
  (∀ (bytes : List Byte) (i : Instr), decode bytes = .instr i → i.wellFormed = true) ∧
    ∀ a b c : Byte, decode [a, b, c] = .instr (.subleq a b c)

/-- R101, R107 and the words of 95_test_vectors.md H1 to H6, P1: a few words decode to what they stand for. -/
def Obligations.WrittenWordsDecodeAsTheSpecSays : Prop :=
  decode [0x14, 0x15, 0x00] = .instr (.subleq 20 21 0) ∧
    decodeCommand 0x0000100 = .instr (.read 1) ∧ decodeCommand 0x1000734 = .instr (.write 7 0x34) ∧
    decodeCommand 0x2000000 = .instr .peekKey ∧ decodeCommand 0x3000000 = .instr .getKey ∧
    decodeCommand 0x40003FF = .instr (.dbset 3 0xFF) ∧ decodeCommand 0x5000000 = .instr .run
end

