-- ==== Sys2Proof/Laws/Decode.lean ====
section
/-! SUPPORT. The fields of a command word and of its bytes, as numbers (30_encoding.md R107). -/

namespace Sys2Proof

theorem commandWord_toNat (code : BitVec 3) (addr : HostAddr) (data : Byte) :
    (commandWord code addr data).toNat = code.toNat * 16777216 + addr.toNat * 256 + data.toNat := by
  have hd := data.isLt
  have ha := addr.isLt
  have e1 : (code ++ addr).toNat = code.toNat * 65536 + addr.toNat := by
    rw [BitVec.toNat_append, ← Nat.shiftLeft_add_eq_or_of_lt ha, Nat.shiftLeft_eq]
  show ((code ++ addr) ++ data).toNat = _
  rw [BitVec.toNat_append, ← Nat.shiftLeft_add_eq_or_of_lt hd, Nat.shiftLeft_eq, e1]
  omega

variable (code : BitVec 3) (addr : HostAddr) (data : Byte)

@[simp] theorem commandCode_commandWord : commandCode (commandWord code addr data) = code := by
  have := code.isLt; have := addr.isLt; have := data.isLt
  apply BitVec.eq_of_toNat_eq
  simp only [commandCode, BitVec.extractLsb'_toNat, commandWord_toNat, Nat.shiftRight_eq_div_pow]
  omega

@[simp] theorem commandAddr_commandWord : commandAddr (commandWord code addr data) = addr := by
  have := code.isLt; have := addr.isLt; have := data.isLt
  apply BitVec.eq_of_toNat_eq
  simp only [commandAddr, BitVec.extractLsb'_toNat, commandWord_toNat, Nat.shiftRight_eq_div_pow]
  omega

@[simp] theorem commandData_commandWord : commandData (commandWord code addr data) = data := by
  have := code.isLt; have := addr.isLt; have := data.isLt
  apply BitVec.eq_of_toNat_eq
  simp only [commandData, BitVec.extractLsb'_toNat, commandWord_toNat, Nat.shiftRight_eq_div_pow]
  omega

@[simp] theorem commandSlot_commandWord : commandSlot (commandWord code addr data) = addr.setWidth 3 := by
  have := code.isLt; have := addr.isLt; have := data.isLt
  apply BitVec.eq_of_toNat_eq
  simp only [commandSlot, BitVec.extractLsb'_toNat, commandWord_toNat, Nat.shiftRight_eq_div_pow, BitVec.toNat_setWidth]
  omega

/-- The four bytes of a command word put together again are the word (log 11). -/
theorem decode_commandBytes (w : CommandWord) : decode (commandBytes w) = decodeCommand w := by
  have hw := w.isLt
  have hk : ((w.extractLsb' 24 3).setWidth 8 : Byte).toNat < 8 := by
    have := (w.extractLsb' 24 3).isLt
    rw [BitVec.toNat_setWidth]; omega
  have e : (((w.extractLsb' 24 3).setWidth 8 : Byte).setWidth 3 ++ (w.extractLsb' 16 8 ++ w.extractLsb' 8 8) ++
      w.extractLsb' 0 8 : BitVec 27) = w := by
    apply BitVec.eq_of_toNat_eq
    have h8 := (w.extractLsb' 8 8).isLt
    have h0 := (w.extractLsb' 0 8).isLt
    have h16 := (w.extractLsb' 16 8 ++ w.extractLsb' 8 8 : BitVec 16).isLt
    rw [BitVec.toNat_append, ← Nat.shiftLeft_add_eq_or_of_lt h0, BitVec.toNat_append,
      ← Nat.shiftLeft_add_eq_or_of_lt h16, BitVec.toNat_append, ← Nat.shiftLeft_add_eq_or_of_lt h8]
    simp only [BitVec.extractLsb'_toNat, BitVec.toNat_setWidth, Nat.shiftLeft_eq, Nat.shiftRight_eq_div_pow]
    omega
  simp only [commandBytes, decode, hk, if_true]
  exact congrArg decodeCommand e

end Sys2Proof
end

