-- ==== Sys2Proof/Laws/State.lean ====
section
/-! SUPPORT. One lemma per field per named update of State: what the update leaves there. -/

namespace Sys2Proof.Machine

variable (s : State)

@[simp] theorem State.setSlot_db (i : Fin 6) (v : Byte) : (s.setSlot i v).db = s.db.set i v := rfl
@[simp] theorem State.setSlot_mem (i : Fin 6) (v : Byte) : (s.setSlot i v).mem = s.mem := rfl
@[simp] theorem State.setSlot_currentDigit (i : Fin 6) (v : Byte) : (s.setSlot i v).currentDigit = s.currentDigit := rfl
@[simp] theorem State.setSlot_ks (i : Fin 6) (v : Byte) : (s.setSlot i v).ks = s.ks := rfl
@[simp] theorem State.setSlot_digitSel (i : Fin 6) (v : Byte) : (s.setSlot i v).digitSel = s.digitSel := rfl
@[simp] theorem State.setSlot_segOut (i : Fin 6) (v : Byte) : (s.setSlot i v).segOut = s.segOut := rfl
@[simp] theorem State.setSlot_colDrive (i : Fin 6) (v : Byte) : (s.setSlot i v).colDrive = s.colDrive := rfl
@[simp] theorem State.setSlot_pc (i : Fin 6) (v : Byte) : (s.setSlot i v).pc = s.pc := rfl
@[simp] theorem State.setSlot_latch (i : Fin 6) (v : Byte) : (s.setSlot i v).latch = s.latch := rfl
@[simp] theorem State.setSlot_fg (i : Fin 6) (v : Byte) : (s.setSlot i v).fg = s.fg := rfl
@[simp] theorem State.setSlot_gk (i : Fin 6) (v : Byte) : (s.setSlot i v).gk = s.gk := rfl
@[simp] theorem State.setSlot_response (i : Fin 6) (v : Byte) : (s.setSlot i v).response = s.response := rfl
@[simp] theorem State.setSlot_arrivals (i : Fin 6) (v : Byte) : (s.setSlot i v).arrivals = s.arrivals := rfl
@[simp] theorem State.setSlot_draws (i : Fin 6) (v : Byte) : (s.setSlot i v).draws = s.draws := rfl

@[simp] theorem State.setMem_db (a : Nat) (v : Byte) : (s.setMem a v).db = s.db := rfl
@[simp] theorem State.setMem_mem (a : Nat) (v : Byte) : (s.setMem a v).mem = s.mem.write a v := rfl
@[simp] theorem State.setMem_currentDigit (a : Nat) (v : Byte) : (s.setMem a v).currentDigit = s.currentDigit := rfl
@[simp] theorem State.setMem_ks (a : Nat) (v : Byte) : (s.setMem a v).ks = s.ks := rfl
@[simp] theorem State.setMem_digitSel (a : Nat) (v : Byte) : (s.setMem a v).digitSel = s.digitSel := rfl
@[simp] theorem State.setMem_segOut (a : Nat) (v : Byte) : (s.setMem a v).segOut = s.segOut := rfl
@[simp] theorem State.setMem_colDrive (a : Nat) (v : Byte) : (s.setMem a v).colDrive = s.colDrive := rfl
@[simp] theorem State.setMem_pc (a : Nat) (v : Byte) : (s.setMem a v).pc = s.pc := rfl
@[simp] theorem State.setMem_latch (a : Nat) (v : Byte) : (s.setMem a v).latch = s.latch := rfl
@[simp] theorem State.setMem_fg (a : Nat) (v : Byte) : (s.setMem a v).fg = s.fg := rfl
@[simp] theorem State.setMem_gk (a : Nat) (v : Byte) : (s.setMem a v).gk = s.gk := rfl
@[simp] theorem State.setMem_response (a : Nat) (v : Byte) : (s.setMem a v).response = s.response := rfl
@[simp] theorem State.setMem_arrivals (a : Nat) (v : Byte) : (s.setMem a v).arrivals = s.arrivals := rfl
@[simp] theorem State.setMem_draws (a : Nat) (v : Byte) : (s.setMem a v).draws = s.draws := rfl

@[simp] theorem State.goto_db (p : Phase) : (s.goto p).db = s.db := rfl
@[simp] theorem State.goto_mem (p : Phase) : (s.goto p).mem = s.mem := rfl
@[simp] theorem State.goto_currentDigit (p : Phase) : (s.goto p).currentDigit = s.currentDigit := rfl
@[simp] theorem State.goto_ks (p : Phase) : (s.goto p).ks = s.ks := rfl
@[simp] theorem State.goto_digitSel (p : Phase) : (s.goto p).digitSel = s.digitSel := rfl
@[simp] theorem State.goto_segOut (p : Phase) : (s.goto p).segOut = s.segOut := rfl
@[simp] theorem State.goto_colDrive (p : Phase) : (s.goto p).colDrive = s.colDrive := rfl
@[simp] theorem State.goto_pc (p : Phase) : (s.goto p).pc = s.pc := rfl
@[simp] theorem State.goto_latch (p : Phase) : (s.goto p).latch = s.latch := rfl
@[simp] theorem State.goto_fg (p : Phase) : (s.goto p).fg = p := rfl
@[simp] theorem State.goto_gk (p : Phase) : (s.goto p).gk = s.gk := rfl
@[simp] theorem State.goto_response (p : Phase) : (s.goto p).response = s.response := rfl
@[simp] theorem State.goto_arrivals (p : Phase) : (s.goto p).arrivals = s.arrivals := rfl
@[simp] theorem State.goto_draws (p : Phase) : (s.goto p).draws = s.draws := rfl

@[simp] theorem State.respond_db (r : Response) : (s.respond r).db = s.db := rfl
@[simp] theorem State.respond_mem (r : Response) : (s.respond r).mem = s.mem := rfl
@[simp] theorem State.respond_currentDigit (r : Response) : (s.respond r).currentDigit = s.currentDigit := rfl
@[simp] theorem State.respond_ks (r : Response) : (s.respond r).ks = s.ks := rfl
@[simp] theorem State.respond_digitSel (r : Response) : (s.respond r).digitSel = s.digitSel := rfl
@[simp] theorem State.respond_segOut (r : Response) : (s.respond r).segOut = s.segOut := rfl
@[simp] theorem State.respond_colDrive (r : Response) : (s.respond r).colDrive = s.colDrive := rfl
@[simp] theorem State.respond_pc (r : Response) : (s.respond r).pc = s.pc := rfl
@[simp] theorem State.respond_latch (r : Response) : (s.respond r).latch = s.latch := rfl
@[simp] theorem State.respond_fg (r : Response) : (s.respond r).fg = s.fg := rfl
@[simp] theorem State.respond_gk (r : Response) : (s.respond r).gk = s.gk := rfl
@[simp] theorem State.respond_response (r : Response) : (s.respond r).response = r := rfl
@[simp] theorem State.respond_arrivals (r : Response) : (s.respond r).arrivals = s.arrivals := rfl
@[simp] theorem State.respond_draws (r : Response) : (s.respond r).draws = s.draws := rfl

@[simp] theorem State.setPc_db (x : Byte) : (s.setPc x).db = s.db := rfl
@[simp] theorem State.setPc_mem (x : Byte) : (s.setPc x).mem = s.mem := rfl
@[simp] theorem State.setPc_currentDigit (x : Byte) : (s.setPc x).currentDigit = s.currentDigit := rfl
@[simp] theorem State.setPc_ks (x : Byte) : (s.setPc x).ks = s.ks := rfl
@[simp] theorem State.setPc_digitSel (x : Byte) : (s.setPc x).digitSel = s.digitSel := rfl
@[simp] theorem State.setPc_segOut (x : Byte) : (s.setPc x).segOut = s.segOut := rfl
@[simp] theorem State.setPc_colDrive (x : Byte) : (s.setPc x).colDrive = s.colDrive := rfl
@[simp] theorem State.setPc_pc (x : Byte) : (s.setPc x).pc = x := rfl
@[simp] theorem State.setPc_latch (x : Byte) : (s.setPc x).latch = s.latch := rfl
@[simp] theorem State.setPc_fg (x : Byte) : (s.setPc x).fg = s.fg := rfl
@[simp] theorem State.setPc_gk (x : Byte) : (s.setPc x).gk = s.gk := rfl
@[simp] theorem State.setPc_response (x : Byte) : (s.setPc x).response = s.response := rfl
@[simp] theorem State.setPc_arrivals (x : Byte) : (s.setPc x).arrivals = s.arrivals := rfl
@[simp] theorem State.setPc_draws (x : Byte) : (s.setPc x).draws = s.draws := rfl

@[simp] theorem State.withArrivals_db (rest : List Arrival) : (s.withArrivals rest).db = s.db := rfl
@[simp] theorem State.withArrivals_mem (rest : List Arrival) : (s.withArrivals rest).mem = s.mem := rfl
@[simp] theorem State.withArrivals_currentDigit (rest : List Arrival) : (s.withArrivals rest).currentDigit = s.currentDigit := rfl
@[simp] theorem State.withArrivals_ks (rest : List Arrival) : (s.withArrivals rest).ks = s.ks := rfl
@[simp] theorem State.withArrivals_digitSel (rest : List Arrival) : (s.withArrivals rest).digitSel = s.digitSel := rfl
@[simp] theorem State.withArrivals_segOut (rest : List Arrival) : (s.withArrivals rest).segOut = s.segOut := rfl
@[simp] theorem State.withArrivals_colDrive (rest : List Arrival) : (s.withArrivals rest).colDrive = s.colDrive := rfl
@[simp] theorem State.withArrivals_pc (rest : List Arrival) : (s.withArrivals rest).pc = s.pc := rfl
@[simp] theorem State.withArrivals_latch (rest : List Arrival) : (s.withArrivals rest).latch = s.latch := rfl
@[simp] theorem State.withArrivals_fg (rest : List Arrival) : (s.withArrivals rest).fg = s.fg := rfl
@[simp] theorem State.withArrivals_gk (rest : List Arrival) : (s.withArrivals rest).gk = s.gk := rfl
@[simp] theorem State.withArrivals_response (rest : List Arrival) : (s.withArrivals rest).response = s.response := rfl
@[simp] theorem State.withArrivals_arrivals (rest : List Arrival) : (s.withArrivals rest).arrivals = rest := rfl
@[simp] theorem State.withArrivals_draws (rest : List Arrival) : (s.withArrivals rest).draws = s.draws := rfl

/-- A direct write to a slot is read back whole there and leaves the others (20_memory.md R84). -/
theorem State.slot_setSlot (i j : Fin 6) (v : Byte) : (s.setSlot i v).slot j = if i = j then v else s.slot j := by
  simp only [State.slot, State.setSlot, Fin.getElem_fin, Vector.getElem_set, Fin.ext_iff]

@[simp] theorem State.slot_setMem (a : Nat) (v : Byte) (i : Fin 6) : (s.setMem a v).slot i = s.slot i := rfl
@[simp] theorem State.slot_goto (p : Phase) (i : Fin 6) : (s.goto p).slot i = s.slot i := rfl
@[simp] theorem State.slot_respond (r : Response) (i : Fin 6) : (s.respond r).slot i = s.slot i := rfl
@[simp] theorem State.slot_setPc (x : Byte) (i : Fin 6) : (s.setPc x).slot i = s.slot i := rfl
@[simp] theorem State.slot_withArrivals (rest : List Arrival) (i : Fin 6) :
    (s.withArrivals rest).slot i = s.slot i := rfl

/-- A state is its own update by the arrivals it holds. -/
theorem State.withArrivals_self : s.withArrivals s.arrivals = s := rfl

@[simp] theorem State.withArrivals_withArrivals (x y : List Arrival) :
    (s.withArrivals x).withArrivals y = s.withArrivals y := rfl

end Sys2Proof.Machine
end

