-- ==== Sys2Proof/Laws/Memory.lean ====
section
/-! SUPPORT. Plain storage and the two memory primitives: what a write leaves at every address, and that memory
keeps its canonical form (20_memory.md R62 to R71). -/

namespace Sys2Proof.Machine

theorem Memory.read_filter_self (m : Memory) (a : Nat) :
    Memory.read (m.filter (fun c => c.1 != a)) a = Memory.unlisted := by
  induction m with
  | nil => rfl
  | cons c m ih =>
    by_cases h : c.1 = a
    · simpa [List.filter_cons, h] using ih
    · simpa [List.filter_cons, h, Memory.read] using ih

theorem Memory.read_filter_ne (m : Memory) {a x : Nat} (hx : x ≠ a) :
    Memory.read (m.filter (fun c => c.1 != a)) x = Memory.read m x := by
  induction m with
  | nil => rfl
  | cons c m ih =>
    by_cases h : c.1 = a
    · simp [h, Memory.read, ih, hx.symm]
    · simp [h, Memory.read, ih]

theorem Memory.read_insert_ne (m : Memory) {a x : Nat} (v : Byte) (hx : x ≠ a) :
    Memory.read (Memory.insert a v m) x = Memory.read m x := by
  induction m with
  | nil => simp [Memory.insert, Memory.read, hx.symm]
  | cons c m ih =>
    simp only [Memory.insert]
    split
    · simp [Memory.read, hx.symm]
    · simp [Memory.read, ih]

theorem Memory.read_insert_self (m : Memory) (a : Nat) (v : Byte) (h : ∀ c ∈ m, c.1 ≠ a) :
    Memory.read (Memory.insert a v m) a = v := by
  induction m with
  | nil => simp [Memory.insert, Memory.read]
  | cons c m ih =>
    simp only [Memory.insert]
    split
    · simp [Memory.read]
    · simp [Memory.read, h c (by simp), ih fun d hd => h d (by simp [hd])]

/-- What memory reads after a write, at every address. -/
theorem Memory.read_write (m : Memory) (a x : Nat) (v : Byte) :
    Memory.read (Memory.write m a v) x = if x = a then v else Memory.read m x := by
  by_cases hx : x = a
  · subst hx
    by_cases hv : v = Memory.unlisted
    · simp [Memory.write, hv, Memory.read_filter_self]
    · simp only [Memory.write, hv, if_false, if_true]
      exact Memory.read_insert_self _ _ _ (by simp)
  · by_cases hv : v = Memory.unlisted
    · simp [Memory.write, hv, Memory.read_filter_ne _ hx, hx]
    · simp [Memory.write, hv, Memory.read_insert_ne _ _ hx, Memory.read_filter_ne _ hx, hx]

theorem Memory.mem_insert {m : Memory} {a : Nat} {v : Byte} {c : Host.Cell} :
    c ∈ Memory.insert a v m ↔ c = (a, v) ∨ c ∈ m := by
  induction m with
  | nil => simp [Memory.insert]
  | cons d m ih =>
    simp only [Memory.insert]
    split
    · simp
    · simp only [List.mem_cons, ih]; tauto

theorem Memory.sorted_insert {m : Memory} {a : Nat} {v : Byte} (hs : m.Pairwise (fun x y => x.1 < y.1))
    (ha : ∀ c ∈ m, c.1 ≠ a) : (Memory.insert a v m).Pairwise (fun x y => x.1 < y.1) := by
  induction m with
  | nil => simp [Memory.insert]
  | cons d m ih =>
    obtain ⟨hd, hm⟩ := List.pairwise_cons.1 hs
    simp only [Memory.insert]
    split
    · rename_i h
      refine List.pairwise_cons.2 ⟨fun c hc => ?_, hs⟩
      rcases List.mem_cons.1 hc with rfl | hc
      · exact h
      · exact lt_trans h (hd c hc)
    · rename_i h
      refine List.pairwise_cons.2 ⟨fun c hc => ?_, ih hm fun c hc => ha c (by simp [hc])⟩
      rcases Memory.mem_insert.1 hc with rfl | hc
      · have := ha d (by simp); simp only; omega
      · exact hd c hc

/-- A write at a plain-storage address keeps the canonical form. -/
theorem Memory.wf_write {m : Memory} (h : m.wf) {a : Nat} (ha : isPlain a = true) (v : Byte) :
    (Memory.write m a v).wf := by
  have hs := h.1.filter (fun c : Host.Cell => c.1 != a)
  have hm : ∀ c ∈ m.filter (fun c : Host.Cell => c.1 != a), c.2 ≠ Memory.unlisted ∧ isPlain c.1 = true :=
    fun c hc => h.2 c (List.mem_filter.1 hc).1
  unfold Memory.write
  split
  · exact ⟨hs, hm⟩
  · rename_i hv
    refine ⟨Memory.sorted_insert hs (by simp), fun c hc => ?_⟩
    rcases Memory.mem_insert.1 hc with rfl | hc
    · exact ⟨hv, ha⟩
    · exact hm c hc

/-- Memory made of any cells is canonical (R31, R32). -/
theorem Memory.wf_ofCells (cells : List Host.Cell) : (Memory.ofCells cells).wf := by
  induction cells with
  | nil => simp [Memory.ofCells, Memory.wf]
  | cons c cells ih =>
    simp only [Memory.ofCells]
    split
    · exact Memory.wf_write ih ‹_› _
    · exact ih

theorem Memory.read_ofCells_absent {cells : List Host.Cell} {a : Nat} (h : ∀ c ∈ cells, c.1 ≠ a) :
    Memory.read (Memory.ofCells cells) a = Memory.unlisted := by
  induction cells with
  | nil => rfl
  | cons c cells ih =>
    have hc := h c (by simp)
    have ih := ih fun d hd => h d (by simp [hd])
    simp only [Memory.ofCells]
    split
    · rw [Memory.read_write, if_neg (Ne.symm hc), ih]
    · exact ih

/-- The address map, address by address (R61). -/
theorem backing_cases (a : Address) :
    (backing a = .plain ∧ isPlain a.val = true) ∨ (∃ i : Fin 6, backing a = .slot i ∧ a.val = i.val + 1) ∨
      ∃ j : Fin 3, ∃ e o : Fin 6, backing a = .pair e o ∧ a.val = 7 + j.val ∧ e.val = 2 * j.val ∧ o.val = 2 * j.val + 1 := by
  obtain ⟨n, hn⟩ := a
  by_cases h : n < 10
  · interval_cases n
    · exact .inl ⟨rfl, rfl⟩
    · exact .inr (.inl ⟨0, rfl, rfl⟩)
    · exact .inr (.inl ⟨1, rfl, rfl⟩)
    · exact .inr (.inl ⟨2, rfl, rfl⟩)
    · exact .inr (.inl ⟨3, rfl, rfl⟩)
    · exact .inr (.inl ⟨4, rfl, rfl⟩)
    · exact .inr (.inl ⟨5, rfl, rfl⟩)
    · exact .inr (.inr ⟨0, 0, 1, rfl, rfl, rfl, rfl⟩)
    · exact .inr (.inr ⟨1, 2, 3, rfl, rfl, rfl, rfl⟩)
    · exact .inr (.inr ⟨2, 4, 5, rfl, rfl, rfl, rfl⟩)
  · refine .inl ⟨?_, ?_⟩
    · unfold backing
      split <;> simp_all
    · simp only [isPlain, decide_eq_true_eq]; omega

theorem backing_plain {a : Address} (h : a.val = 0 ∨ 10 ≤ a.val) : backing a = .plain := by
  obtain h' | ⟨i, _, h'⟩ | ⟨j, e, o, _, h', _⟩ := backing_cases a
  · exact h'.1
  · omega
  · omega

theorem backing_slot {a : Address} {i : Fin 6} (h : a.val = i.val + 1) : backing a = .slot i := by
  obtain ⟨_, h'⟩ | ⟨j, hb, h'⟩ | ⟨j, e, o, _, h', _⟩ := backing_cases a
  · simp only [isPlain, decide_eq_true_eq] at h'; omega
  · rw [hb, show j = i from Fin.ext (by omega)]
  · omega

theorem backing_pair {a : Address} {j : Fin 3} (h : a.val = 7 + j.val) :
    backing a = .pair ⟨2 * j.val, by omega⟩ ⟨2 * j.val + 1, by omega⟩ := by
  obtain ⟨_, h'⟩ | ⟨i, _, h'⟩ | ⟨j', e, o, hb, h', he, ho⟩ := backing_cases a
  · simp only [isPlain, decide_eq_true_eq] at h'; omega
  · omega
  · have : j' = j := Fin.ext (by omega)
    subst this
    rw [hb]; congr 1 <;> exact Fin.ext (by assumption)

/-- Everything a memory write can change: plain storage or the display slots, never both (R66 to R69). -/
theorem memWrite_cases (s : State) (a : Address) (v : Byte) :
    (backing a = .plain ∧ memWrite s a v = s.setMem a.val v) ∨
      (∃ i, backing a = .slot i ∧ memWrite s a v = s.setSlot i v) ∨
      ∃ e o, backing a = .pair e o ∧ memWrite s a v = (s.setSlot e (lowNibble v)).setSlot o (highNibble v) := by
  obtain ⟨h, _⟩ | ⟨i, h, _⟩ | ⟨_, e, o, h, _⟩ := backing_cases a
  · exact .inl ⟨h, by simp [memWrite, h]⟩
  · exact .inr (.inl ⟨i, h, by simp [memWrite, h]⟩)
  · exact .inr (.inr ⟨e, o, h, by simp [memWrite, h]⟩)

/-- A memory write changes memory and display only. -/
theorem memWrite_eq (s : State) (a : Address) (v : Byte) :
    memWrite s a v = { s with db := (memWrite s a v).db, mem := (memWrite s a v).mem } := by
  obtain ⟨_, h⟩ | ⟨_, _, h⟩ | ⟨_, _, _, h⟩ := memWrite_cases s a v <;> rw [h] <;> rfl

variable (s : State) (a : Address) (v : Byte)

@[simp] theorem memWrite_currentDigit : (memWrite s a v).currentDigit = s.currentDigit := by rw [memWrite_eq]
@[simp] theorem memWrite_ks : (memWrite s a v).ks = s.ks := by rw [memWrite_eq]
@[simp] theorem memWrite_digitSel : (memWrite s a v).digitSel = s.digitSel := by rw [memWrite_eq]
@[simp] theorem memWrite_segOut : (memWrite s a v).segOut = s.segOut := by rw [memWrite_eq]
@[simp] theorem memWrite_colDrive : (memWrite s a v).colDrive = s.colDrive := by rw [memWrite_eq]
@[simp] theorem memWrite_pc : (memWrite s a v).pc = s.pc := by rw [memWrite_eq]
@[simp] theorem memWrite_latch : (memWrite s a v).latch = s.latch := by rw [memWrite_eq]
@[simp] theorem memWrite_fg : (memWrite s a v).fg = s.fg := by rw [memWrite_eq]
@[simp] theorem memWrite_gk : (memWrite s a v).gk = s.gk := by rw [memWrite_eq]
@[simp] theorem memWrite_response : (memWrite s a v).response = s.response := by rw [memWrite_eq]
@[simp] theorem memWrite_arrivals : (memWrite s a v).arrivals = s.arrivals := by rw [memWrite_eq]
@[simp] theorem memWrite_draws : (memWrite s a v).draws = s.draws := by rw [memWrite_eq]

/-- A memory read depends on memory and display only (R62). -/
theorem memRead_congr {s t : State} (hm : t.mem = s.mem) (hd : t.db = s.db) (a : Address) :
    memRead t a = memRead s a := by
  unfold memRead State.slot
  rw [hm, hd]

/-- A memory write depends on memory and display only. -/
theorem memWrite_congr {s t : State} (hm : t.mem = s.mem) (hd : t.db = s.db) (a : Address) (v : Byte) :
    (memWrite t a v).mem = (memWrite s a v).mem ∧ (memWrite t a v).db = (memWrite s a v).db := by
  obtain ⟨h, _⟩ | ⟨i, h, _⟩ | ⟨_, e, o, h, _⟩ := backing_cases a <;> simp [memWrite, h, hm, hd]

/-- Every memory operation keeps the canonical form. -/
theorem memWrite_wf (h : s.mem.wf) : (memWrite s a v).mem.wf := by
  obtain ⟨hb, e⟩ | ⟨_, _, e⟩ | ⟨_, _, _, e⟩ := memWrite_cases s a v
  · rw [e]
    obtain h' | ⟨i, h', _⟩ | ⟨_, _, _, h', _⟩ := backing_cases a
    · exact Memory.wf_write h h'.2 v
    · rw [hb] at h'; cases h'
    · rw [hb] at h'; cases h'
  · rw [e]; exact h
  · rw [e]; exact h

theorem reset_mem_wf : State.reset.mem.wf := by simp [State.reset, State.resetWith, Memory.wf]

end Sys2Proof.Machine
end

