-- ==== Sys2Proof/Laws/Operands.lean ====
section
/-! SUPPORT. Nibbles, key codes and the arithmetic: the facts the constraints of the parameters give. -/

namespace Sys2Proof.Machine

theorem lowNibble_toNat (v : Byte) : (lowNibble v).toNat = v.toNat % 16 := by
  simp only [lowNibble, BitVec.toNat_and]
  exact Nat.and_two_pow_sub_one_eq_mod v.toNat 4

theorem highNibble_toNat (v : Byte) : (highNibble v).toNat = v.toNat / 16 := by
  have h := v.isLt
  have e := Nat.and_two_pow_sub_one_eq_mod (v.toNat / 16) 4
  simp only [highNibble, BitVec.toNat_and, BitVec.toNat_ushiftRight, Nat.shiftRight_eq_div_pow]
  exact e.trans (Nat.mod_eq_of_lt (by omega))

theorem packNibbles_toNat (h l : Byte) : (packNibbles h l).toNat = (h.toNat % 16) * 16 + l.toNat % 16 := by
  have hl := lowNibble_toNat l
  have hh := lowNibble_toNat h
  have e : (lowNibble h <<< 4).toNat = (h.toNat % 16) * 2 ^ 4 := by
    rw [BitVec.toNat_shiftLeft, hh, Nat.shiftLeft_eq]
    exact Nat.mod_eq_of_lt (by omega)
  rw [packNibbles, BitVec.toNat_or, hl, e, ← Nat.shiftLeft_eq,
    ← Nat.shiftLeft_add_eq_or_of_lt (show l.toNat % 16 < 2 ^ 4 by omega), Nat.shiftLeft_eq]

@[simp] theorem lowNibble_lowNibble (v : Byte) : lowNibble (lowNibble v) = lowNibble v :=
  BitVec.eq_of_toNat_eq (by simp only [lowNibble_toNat]; omega)

@[simp] theorem lowNibble_highNibble (v : Byte) : lowNibble (highNibble v) = highNibble v :=
  BitVec.eq_of_toNat_eq (by have := v.isLt; simp only [lowNibble_toNat, highNibble_toNat]; omega)

/-- The symmetric pack inverts the split (R71 (iii)). -/
@[simp] theorem packNibbles_split (v : Byte) : packNibbles (highNibble v) (lowNibble v) = v :=
  BitVec.eq_of_toNat_eq (by have := v.isLt; simp only [packNibbles_toNat, lowNibble_toNat, highNibble_toNat]; omega)

theorem ofNat_ne_sentinel {n : Nat} (h : n < 255) : BitVec.ofNat 8 n ≠ Config.sentinel := by
  intro e
  have := congrArg BitVec.toNat e
  have hs : Config.sentinel.toNat = 255 := rfl
  rw [BitVec.toNat_ofNat, hs] at this
  omega

/-- No matrix entry is the sentinel (R43). -/
theorem keyMatrix_ne_sentinel (r : Fin 4) (c : Fin 5) : keyMatrix r c ≠ Config.sentinel := by
  unfold keyMatrix
  split
  · exact ofNat_ne_sentinel (by omega)
  · exact ofNat_ne_sentinel (by omega)

theorem cancelCode_ne_sentinel : cancelCode ≠ Config.sentinel := ofNat_ne_sentinel (by omega)

theorem drawnCode_ne_sentinel (n : Nat) : drawnCode n ≠ Config.sentinel := ofNat_ne_sentinel (by omega)

theorem secondaryKey_ne_sentinel (d : Fin 16) : secondaryKey d ≠ Config.sentinel := by
  unfold secondaryKey
  split
  · exact ofNat_ne_sentinel (by omega)
  · decide

/-- The cancel check is equality with the cancel code (R184). -/
theorem isCancel_iff (code : Byte) : isCancel code = true ↔ code = cancelCode := by
  unfold isCancel
  split
  · rename_i h
    subst h
    simpa using cancelCode_ne_sentinel.symm
  · simp

theorem isCancel_sentinel : isCancel 0xFF = false := rfl

end Sys2Proof.Machine
end

