-- ==== Sys2Proof/Laws/Tick.lean ====
section
/-! SUPPORT. What a tick does, in one equation (40_display_multiplexer.md R120), and what it leaves. -/

namespace Sys2Proof.Machine

/-- The column lines after a tick: they move only without contact (R144). -/
def columnAfter (rows : Rows) (s : State) : Fin 5 :=
  if contact rows = none then s.ks.activeColumn + 1 else s.colDrive

/-- Everything a tick writes (R120). -/
theorem tick_eq (rows : Rows) (s : State) :
    tick rows s =
      { s with
        digitSel := some s.currentDigit
        segOut := glyph (s.slot s.currentDigit)
        currentDigit := s.currentDigit + 1
        ks := scan rows s.ks
        colDrive := columnAfter rows s } := by
  unfold tick scanStep columnAfter
  split <;> rename_i h
  · simp [h, advanceDigit, enableDigit, driveGlyph, blankDigits, State.slot]
  · simp [h, scan, advanceDigit, enableDigit, driveGlyph, blankDigits, State.slot]

variable (rows : Rows) (s : State)

@[simp] theorem tick_db : (tick rows s).db = s.db := by rw [tick_eq]
@[simp] theorem tick_mem : (tick rows s).mem = s.mem := by rw [tick_eq]
@[simp] theorem tick_pc : (tick rows s).pc = s.pc := by rw [tick_eq]
@[simp] theorem tick_latch : (tick rows s).latch = s.latch := by rw [tick_eq]
@[simp] theorem tick_fg : (tick rows s).fg = s.fg := by rw [tick_eq]
@[simp] theorem tick_gk : (tick rows s).gk = s.gk := by rw [tick_eq]
@[simp] theorem tick_response : (tick rows s).response = s.response := by rw [tick_eq]
@[simp] theorem tick_arrivals : (tick rows s).arrivals = s.arrivals := by rw [tick_eq]
@[simp] theorem tick_draws : (tick rows s).draws = s.draws := by rw [tick_eq]
@[simp] theorem tick_ks : (tick rows s).ks = scan rows s.ks := by rw [tick_eq]
@[simp] theorem tick_currentDigit : (tick rows s).currentDigit = s.currentDigit + 1 := by rw [tick_eq]
@[simp] theorem tick_digitSel : (tick rows s).digitSel = some s.currentDigit := by rw [tick_eq]
@[simp] theorem tick_segOut : (tick rows s).segOut = glyph (s.slot s.currentDigit) := by rw [tick_eq]
@[simp] theorem tick_colDrive : (tick rows s).colDrive = columnAfter rows s := by rw [tick_eq]
@[simp] theorem tick_slot (i : Fin 6) : (tick rows s).slot i = s.slot i := by rw [tick_eq]; rfl

/-- A memory read sees through a tick (10_state.md R47). -/
@[simp] theorem memRead_tick (a : Address) : memRead (tick rows s) a = memRead s a :=
  memRead_congr (tick_mem rows s) (tick_db rows s) a

/-- A tick neither reads nor changes what the environment supplies next. -/
theorem tick_withArrivals (rest : List Arrival) : tick rows (s.withArrivals rest) = (tick rows s).withArrivals rest := by
  simp [tick_eq, State.withArrivals, State.slot, columnAfter]

/-- The scan in the three cases that matter: no contact, arming, and a contact when armed or held (R147). -/
theorem scan_none {rows : Rows} (h : contact rows = none) (ks : KeyboardState) :
    scan rows ks =
      { activeColumn := ks.activeColumn + 1, debounceLatch := false, keyHeld := false, activeRow := none
        currentCode := Config.sentinel } := by
  simp [scan, h]

theorem scan_arm {rows : Rows} {r : Fin 4} (h : contact rows = some r) {ks : KeyboardState}
    (hl : ks.debounceLatch = false) :
    scan rows ks = { ks with activeRow := some r, debounceLatch := true } := by
  simp [scan, h, hl]

theorem scan_latch {rows : Rows} {r : Fin 4} (h : contact rows = some r) {ks : KeyboardState}
    (hl : ks.debounceLatch = true) (hh : ks.keyHeld = false) :
    scan rows ks =
      { ks with activeRow := some r, currentCode := keyMatrix r ks.activeColumn, keyHeld := true } := by
  simp [scan, h, hl, hh]

theorem scan_hold {rows : Rows} {r : Fin 4} (h : contact rows = some r) {ks : KeyboardState}
    (hl : ks.debounceLatch = true) (hh : ks.keyHeld = true) : scan rows ks = { ks with activeRow := some r } := by
  simp [scan, h, hl, hh]

end Sys2Proof.Machine
end

