-- ==== Sys2Proof/Laws/Step.lean ====
section
/-! SUPPORT. What a step can be, one case per arrival, and how a run unrolls. -/

namespace Sys2Proof.Machine

variable (s : State) (rest : List Arrival)

@[simp] theorem step_nil : step (s.withArrivals []) = proceed (s.withArrivals []) := rfl
@[simp] theorem step_tick (rows : Rows) :
    step (s.withArrivals (.tick rows :: rest)) = .next (tick rows (s.withArrivals rest)) := rfl
@[simp] theorem step_command (w : CommandWord) :
    step (s.withArrivals (.command w :: rest)) = execDecoded (decodeCommand w) (s.withArrivals rest) := rfl
@[simp] theorem step_reset (mem0 : List Host.Cell) (db0 : Slots) :
    step (s.withArrivals (.reset mem0 db0 :: rest)) = .next (resetEvent mem0 db0 (s.withArrivals rest)) := rfl
@[simp] theorem step_micro :
    step (s.withArrivals (.micro :: rest)) = .next (microStep (s.withArrivals rest)) := rfl
@[simp] theorem step_proceed : step (s.withArrivals (.proceed :: rest)) = proceed (s.withArrivals rest) := rfl

/-- The bytes at the program counter are always one `SUBLEQ` (R103, R104). -/
theorem proceed_eq :
    proceed s =
      if s.fg = .e1 then
        execSubleq (memRead s (operandAddress s.pc)) (memRead s (operandAddress (nextPc s.pc)))
          (memRead s (operandAddress (nextPc (nextPc s.pc)))) s
      else .next (microStep s) := rfl

/-- One inversion for every step: what arrived and what it did (R9, R10). -/
theorem step_cases (s : State) :
    (s.arrivals = [] ∧ step s = proceed s) ∨
      ∃ rest, (∃ rows, s.arrivals = .tick rows :: rest ∧ step s = .next (tick rows (s.withArrivals rest))) ∨
        (∃ w, s.arrivals = .command w :: rest ∧ step s = execDecoded (decodeCommand w) (s.withArrivals rest)) ∨
        (∃ m d, s.arrivals = .reset m d :: rest ∧ step s = .next (resetEvent m d (s.withArrivals rest))) ∨
        (s.arrivals = .micro :: rest ∧ step s = .next (microStep (s.withArrivals rest))) ∨
        (s.arrivals = .proceed :: rest ∧ step s = proceed (s.withArrivals rest)) := by
  rcases h : s.arrivals with _ | ⟨a, rest⟩
  · exact .inl ⟨rfl, by simp [step, h]⟩
  · refine .inr ⟨rest, ?_⟩
    cases a <;> simp [step, h, arrive]

@[simp] theorem runs_zero : runs 0 s = .next s := rfl

theorem runs_succ (n : Nat) :
    runs (n + 1) s =
      match step s with
      | .next t => runs n t
      | .fault f => .fault f
      | .refused r => .refused r := by
  have h : Sys2Proof.core.step s = step s := rfl
  cases e : step s <;> rw [e] at h <;> exact (Host.Core.run.eq_2 Sys2Proof.core s n).trans (by rw [h]; rfl)

/-- A run whose first step goes on. -/
theorem runs_of_next {s t : State} (h : step s = .next t) (n : Nat) : runs (n + 1) s = runs n t := by
  simp [runs_succ, h]

theorem runs_add {m n : Nat} {s t : State} (h : runs m s = .next t) : runs (m + n) s = runs n t := by
  induction m generalizing s with
  | zero => simp only [runs_zero, Host.Outcome.next.injEq] at h; simp [h]
  | succ m ih =>
    rw [runs_succ] at h
    rw [show m + 1 + n = (m + n) + 1 by omega, runs_succ]
    split at h
    · exact ih h
    · cases h
    · cases h

/-- An invariant of the step holds along every run that goes on: the induction, once. -/
theorem runs_induction {P : State → Prop} (hstep : ∀ s t, P s → step s = .next t → P t) {n : Nat} {s t : State}
    (hs : P s) (h : runs n s = .next t) : P t := by
  induction n generalizing s with
  | zero => simp only [runs_zero, Host.Outcome.next.injEq] at h; exact h ▸ hs
  | succ n ih =>
    rw [runs_succ] at h
    split at h
    · exact ih (hstep _ _ hs ‹_›) h
    · cases h
    · cases h

end Sys2Proof.Machine
end

