-- ==== Sys2Proof/Laws/Foreground.lean ====
section
/-! SUPPORT. What the foreground can do: one lemma per shared operation, cited instead of unfolding it. -/

namespace Sys2Proof.Machine

/-- A command is refused while busy, and runs its body when idle (R200). -/
theorem accept_busy {s : State} (h : s.fg ≠ .idle) (body : State → Host.Outcome State Fault Refusal) :
    accept s body = .refused .busy := by simp [accept, h]

theorem accept_idle {s : State} (h : s.fg = .idle) (body : State → Host.Outcome State Fault Refusal) :
    accept s body = body (s.respond .nothing) := by simp [accept, h]

/-- An address below N resolves to itself, one at or above N to nothing (R70, decision D11). -/
theorem resolveAddress_of_lt {addr : HostAddr} {a : Address} (h : addr.toNat = a.val) : resolveAddress addr = some a := by
  have ha : addr.toNat < 1024 := h ▸ a.isLt
  simp only [resolveAddress, Config.memSize, ha, dif_pos]
  exact congrArg some (Fin.ext h)

theorem resolveAddress_of_ge {addr : HostAddr} (h : 1024 ≤ addr.toNat) : resolveAddress addr = none := by
  simp [resolveAddress, Config.memSize, Config.oorPolicy, Nat.not_lt.2 h]

theorem resolveAddress_eq_none {addr : HostAddr} (h : resolveAddress addr = none) : 1024 ≤ addr.toNat := by
  by_contra hc
  have := resolveAddress_of_lt (addr := addr) (a := ⟨addr.toNat, by simp only [Config.memSize]; omega⟩) rfl
  rw [h] at this
  cases this

/-- `SUBLEQ` in one equation, with the cancel check of the latched code (R180, R184, R195). -/
theorem execSubleq_eq (a b c : Byte) (s : State) :
    execSubleq a b c s =
      .next
        { memWrite s (operandAddress b)
            (difference (memRead s (operandAddress b)) (memRead s (operandAddress a))) with
          latch :=
            { a := a, b := b, c := c
              result := difference (memRead s (operandAddress b)) (memRead s (operandAddress a)) }
          pc :=
            if cancelObserved s = false ∧
                branchTaken (difference (memRead s (operandAddress b)) (memRead s (operandAddress a))) = true then c
            else nextPc (nextPc (nextPc s.pc))
          fg :=
            if cancelObserved s = true then .x1
            else if runGoesOn
                (if branchTaken (difference (memRead s (operandAddress b)) (memRead s (operandAddress a))) = true
                  then c else nextPc (nextPc (nextPc s.pc))) = true then .e1
            else .x1 } := by
  have hr : ∀ x, memRead (operandsFetched a b c s) x = memRead s x := fun x => memRead_congr rfl rfl x
  generalize hd : difference (memRead s (operandAddress b)) (memRead s (operandAddress a)) = r
  have hs : storeResult (subtract (operandsFetched a b c s)) =
      { memWrite s (operandAddress b) r with
        latch := { a := a, b := b, c := c, result := r }
        pc := nextPc (nextPc (nextPc s.pc)), fg := .e6 } := by
    have hsub : subtract (operandsFetched a b c s) =
        { s with latch := { a := a, b := b, c := c, result := r }, pc := nextPc (nextPc (nextPc s.pc)), fg := .e5 } := by
      simp only [subtract, hr]
      simp [operandsFetched, hd]
    rw [hsub, storeResult]
    obtain ⟨hm, he⟩ := memWrite_congr (s := s) (t := { s with latch := { a := a, b := b, c := c, result := r }, pc := nextPc (nextPc (nextPc s.pc)), fg := .e5 }) rfl rfl (operandAddress b) r
    rw [memWrite_eq]
    simp [State.goto, hm, he]
  unfold execSubleq
  simp only [hs, firstCancelCheck, secondCancelCheck, branch, loopTest, cancelObserved]
  by_cases hc : isCancel s.ks.currentCode = true
  · simp [hc, State.goto]
  · by_cases hb : branchTaken r = true
    · by_cases hg : runGoesOn c = true <;> simp [hc, hb, hg, State.goto, State.setPc]
    · by_cases hg : runGoesOn (nextPc (nextPc (nextPc s.pc))) = true <;> simp [hc, hb, hg, State.goto]

/-- What a micro-step of `GetKey` never touches: the tick's state, memory, the program counter, the operand latches. -/
theorem getKeyStep_frame (caller : Caller) (p : GetKeyPhase) (s : State) :
    TickStateKept s (getKeyStep caller p s) ∧ (getKeyStep caller p s).mem = s.mem ∧
      (getKeyStep caller p s).pc = s.pc ∧ (getKeyStep caller p s).latch = s.latch ∧
      (getKeyStep caller p s).arrivals = s.arrivals := by
  cases p <;>
    simp only [getKeyStep, getKeyPoll, getKeyRelease, getKeySave, getKeyFill, getKeyShiftRelease, getKeySecond,
      getKeySecondRelease, getKeyRestore, getKeyReturn]
  case gk8 => cases caller <;> exact ⟨⟨rfl, rfl, rfl, rfl, rfl⟩, rfl, rfl, rfl, rfl⟩
  case gk2 => split <;> cases caller <;> exact ⟨⟨rfl, rfl, rfl, rfl, rfl⟩, rfl, rfl, rfl, rfl⟩
  case gk1 => split <;> [skip; split] <;> exact ⟨⟨rfl, rfl, rfl, rfl, rfl⟩, rfl, rfl, rfl, rfl⟩
  all_goals split <;> exact ⟨⟨rfl, rfl, rfl, rfl, rfl⟩, rfl, rfl, rfl, rfl⟩

/-- What no foreground micro-step touches: the tick's state, and what the environment supplies (R47). -/
theorem microStep_frame (s : State) : TickStateKept s (microStep s) ∧ (microStep s).arrivals = s.arrivals := by
  unfold microStep
  split
  case h_2 caller p _ => exact ⟨(getKeyStep_frame caller p s).1, (getKeyStep_frame caller p s).2.2.2.2⟩
  case h_8 => exact ⟨⟨by simp [storeResult], by simp [storeResult], by simp [storeResult], by simp [storeResult], by simp [storeResult]⟩, by simp [storeResult]⟩
  case h_9 => unfold firstCancelCheck; split <;> exact ⟨⟨rfl, rfl, rfl, rfl, rfl⟩, rfl⟩
  case h_10 => unfold branch; split <;> exact ⟨⟨rfl, rfl, rfl, rfl, rfl⟩, rfl⟩
  case h_11 => unfold secondCancelCheck; split <;> exact ⟨⟨rfl, rfl, rfl, rfl, rfl⟩, rfl⟩
  case h_12 => unfold loopTest; split <;> exact ⟨⟨rfl, rfl, rfl, rfl, rfl⟩, rfl⟩
  case h_13 => unfold exitRelease; split <;> exact ⟨⟨rfl, rfl, rfl, rfl, rfl⟩, rfl⟩
  all_goals exact ⟨⟨rfl, rfl, rfl, rfl, rfl⟩, rfl⟩

/-- A memory write does not look at what the environment supplies. -/
theorem memWrite_withArrivals (s : State) (rest : List Arrival) (a : Address) (v : Byte) :
    memWrite (s.withArrivals rest) a v = (memWrite s a v).withArrivals rest := by
  unfold memWrite
  split <;> rfl

/-- A micro-step of `GetKey` does not look at what the environment supplies. -/
theorem getKeyStep_withArrivals (caller : Caller) (p : GetKeyPhase) (s : State) (rest : List Arrival) :
    getKeyStep caller p (s.withArrivals rest) = (getKeyStep caller p s).withArrivals rest := by
  cases p with
  | gk1 =>
    by_cases h : s.ks.currentCode = Config.sentinel
    · simp [getKeyStep, getKeyPoll, peekKey, h]; rfl
    · by_cases h' : s.ks.currentCode = Config.shiftCode
      · have : Config.shiftCode ≠ Config.sentinel := by decide
        simp [getKeyStep, getKeyPoll, peekKey, h', this]; rfl
      · simp [getKeyStep, getKeyPoll, peekKey, h, h']; rfl
  | gk2 => by_cases h : s.ks.keyHeld = true <;> cases caller <;> simp [getKeyStep, getKeyRelease, getKeyReturn, h] <;> rfl
  | gk3Save i => rcases h : nextSlot i with _ | j <;> simp [getKeyStep, getKeySave, h] <;> rfl
  | gk3Fill i => rcases h : nextSlot i with _ | j <;> simp [getKeyStep, getKeyFill, h] <;> rfl
  | gk4 => by_cases h : s.ks.keyHeld = true <;> simp [getKeyStep, getKeyShiftRelease, h] <;> rfl
  | gk5 => by_cases h : s.ks.currentCode = Config.sentinel <;> simp [getKeyStep, getKeySecond, peekKey, h] <;> rfl
  | gk6 => by_cases h : s.ks.keyHeld = true <;> simp [getKeyStep, getKeySecondRelease, h] <;> rfl
  | gk7 i => rcases h : nextSlot i with _ | j <;> simp [getKeyStep, getKeyRestore, h] <;> rfl
  | gk8 => cases caller <;> rfl

/-- A micro-step does not look at what the environment supplies. -/
theorem microStep_withArrivals (s : State) (rest : List Arrival) :
    microStep (s.withArrivals rest) = (microStep s).withArrivals rest := by
  unfold microStep
  simp only [State.withArrivals_fg]
  split
  case h_2 caller p _ => exact getKeyStep_withArrivals caller p s rest
  case h_8 => simp only [storeResult, State.withArrivals_latch, memWrite_withArrivals]; rfl
  case h_9 => by_cases h : cancelObserved s = true <;> simp [firstCancelCheck, cancelObserved] at h ⊢ <;> simp [h] <;> rfl
  case h_10 => by_cases h : branchTaken s.latch.result = true <;> simp [branch, h] <;> rfl
  case h_11 => by_cases h : cancelObserved s = true <;> simp [secondCancelCheck, cancelObserved] at h ⊢ <;> simp [h] <;> rfl
  case h_12 => by_cases h : runGoesOn s.pc = true <;> simp [loopTest, h] <;> rfl
  case h_13 => by_cases h : s.ks.keyHeld = true <;> simp [exitRelease, h] <;> rfl
  all_goals rfl

end Sys2Proof.Machine
end

