-- ==== Sys2Proof/Laws/PerInstr.lean ====
section
/-! SUPPORT. A family of statements made per instruction: how many bytes its encoding has (30_encoding.md R100 for
`SUBLEQ`; R107 with log 11 for a host command). -/

open Sys2Proof

/-- A `SUBLEQ` has three bytes, a command word four. -/
def Sys2Proof.Laws.EncodeSize.Statement (i : Instr) : Prop :=
  (encode i).length =
    match i with
    | .subleq _ _ _ => 3
    | .read _ => 4
    | .write _ _ => 4
    | .peekKey => 4
    | .getKey => 4
    | .dbset _ _ => 4
    | .run => 4

theorem Sys2Proof.Laws.EncodeSize.subleq (a b c : Byte) : Sys2Proof.Laws.EncodeSize.Statement (.subleq a b c) := rfl
theorem Sys2Proof.Laws.EncodeSize.read (addr : HostAddr) : Sys2Proof.Laws.EncodeSize.Statement (.read addr) := rfl
theorem Sys2Proof.Laws.EncodeSize.write (addr : HostAddr) (data : Byte) :
    Sys2Proof.Laws.EncodeSize.Statement (.write addr data) := rfl
theorem Sys2Proof.Laws.EncodeSize.peekKey : Sys2Proof.Laws.EncodeSize.Statement .peekKey := rfl
theorem Sys2Proof.Laws.EncodeSize.getKey : Sys2Proof.Laws.EncodeSize.Statement .getKey := rfl
theorem Sys2Proof.Laws.EncodeSize.dbset (slot : BitVec 3) (data : Byte) :
    Sys2Proof.Laws.EncodeSize.Statement (.dbset slot data) := rfl
theorem Sys2Proof.Laws.EncodeSize.run : Sys2Proof.Laws.EncodeSize.Statement .run := rfl
end

