-- ==== Sys2Proof/Tests/Slice0.lean ====
section
/-! SUPPORT. Tests with expected values from spec/ (the vector of 95_test_vectors.md is named where one is used), and
for every statement with hypotheses a witness that meets them. -/

namespace Sys2Proof.Tests

open Sys2Proof Sys2Proof.Machine

/-- A run about to fetch at `pc`, with cells listed in memory and slot 0 of the display. -/
def inRun (cells : List Host.Cell) (pc slot0 : Byte) : State :=
  { State.reset with
    mem := Memory.ofCells cells, db := (Vector.replicate 6 0).set 0 slot0, pc := pc, fg := .e1 }

/-- An idle core whose slot 0 holds a byte. -/
def idleCore (slot0 : Byte) : State := { State.reset with db := (Vector.replicate 6 0).set 0 slot0 }

/-- A core whose scanner holds a key code on column 3. -/
def holding (code : Byte) (p : Phase) : State :=
  { State.reset with
    fg := p, colDrive := 3
    ks := { activeColumn := 3, debounceLatch := true, keyHeld := true, activeRow := some 2, currentCode := code } }

/-- A core whose scanner is idle on a column. -/
def scanning (col : Fin 5) (p : Phase) : State :=
  { State.reset with fg := p, colDrive := col, ks := { KeyboardState.reset with activeColumn := col } }

/-! Well-formedness: an ill-formed term for each check, and its neighbour that passes (R108) -/

theorem test_wf_refuses_dbset_slot_6 : (Instr.dbset 6 0).wellFormed = false := by decide
theorem test_wf_refuses_dbset_slot_7 : (Instr.dbset 7 0xFF).wellFormed = false := by decide
theorem test_wf_accepts_dbset_slot_5 : (Instr.dbset 5 0xFF).wellFormed = true := by decide

/-! Decoding: words written out bit by bit from R101 and R107 -/

theorem test_decode_subleq : decode [0b00010100, 0b00010101, 0b00000000] = .instr (.subleq 20 21 0) := by decide
/-- H1 -/
theorem test_decode_read : decodeCommand 0b000000000000000000100000000 = .instr (.read 1) := by decide
/-- H2 -/
theorem test_decode_write : decodeCommand 0b001000000000000011100110100 = .instr (.write 7 0x34) := by decide
/-- H3 -/
theorem test_decode_peekKey : decodeCommand 0b010000000000000000000000000 = .instr .peekKey := by decide
/-- H4, with ignored bits set (R107) -/
theorem test_decode_getKey : decodeCommand 0b011111111111111111111111111 = .instr .getKey := by decide
/-- H5; the ignored address bits above the slot set (R107) -/
theorem test_decode_dbset : decodeCommand 0b100111111111111101111111111 = .instr (.dbset 3 0xFF) := by decide
/-- H6 -/
theorem test_decode_run : decodeCommand 0b101000000000000000000000000 = .instr .run := by decide
/-- H8 -/
theorem test_decode_reserved_slot : decodeCommand 0b100000000000000011000000000 = .rejected (.reservedSlot 6) := by
  decide
/-- H9 -/
theorem test_decode_reserved_code : decodeCommand 0b110000000000000000000000000 = .rejected (.reservedCode 6) := by
  decide
theorem test_decode_rejects_two_bytes : decode [0x14, 0x15] = .rejected (.wrongLength 2) := by decide
theorem test_decode_rejects_28_bits : decode [0x08, 0, 0, 0] = .rejected (.notACommandWord 8) := by decide
theorem test_decodeTableWord_subleq : decodeTableWord 24 0x141500 = some (.subleq 20 21 0) := by decide
theorem test_decodeTableWord_write : decodeTableWord 32 0x1000734 = some (.write 7 0x34) := by decide
theorem test_decodeTableWord_refuses : decodeTableWord 32 0x6000000 = none := by decide
theorem test_encode_write : encode (.write 7 0x34) = [0x01, 0x00, 0x07, 0x34] := by decide

/-! The placed instruction is what the very next step runs -/

theorem test_withFetchWord_subleq :
    step (State.reset.withFetchWord 24 0x141500) =
      exec (.subleq 20 21 0) { State.reset with mem := [(10, 20), (11, 21)], pc := 10, fg := .e1 } := rfl
theorem test_withFetchWord_dbset :
    step (State.reset.withFetchWord 32 0x40003FF) = exec (.dbset 3 0xFF) State.reset := rfl

/-! `SUBLEQ` -/

/-- I1 -/
theorem test_subleq_zero_branches_and_halts :
    ∃ t, step (inRun [(10, 20), (11, 21), (20, 5), (21, 5)] 10 0) = .next t ∧
      memRead t 21 = 0 ∧ t.pc = 0 ∧ t.fg = .x1 := ⟨_, rfl, rfl, rfl, rfl⟩
/-- I3 -/
theorem test_subleq_borrow_does_not_branch :
    ∃ t, step (inRun [(10, 20), (11, 21), (20, 10), (21, 3)] 10 0) = .next t ∧
      memRead t 21 = 0xF9 ∧ t.pc = 13 ∧ t.fg = .e1 := ⟨_, rfl, rfl, rfl, rfl⟩
/-- I6 -/
theorem test_subleq_on_display_slot :
    ∃ t, step (inRun [(10, 31), (11, 1), (12, 13), (31, 5)] 10 0x03) = .next t ∧
      t.db[0] = 0xFE ∧ memRead t 1 = 0x0E ∧ t.pc = 13 := ⟨_, rfl, rfl, rfl, rfl⟩
/-- I10 -/
theorem test_subleq_fetch_wraps :
    ∃ t, step (inRun [(254, 20), (255, 21), (0, 77), (20, 1), (21, 3)] 254 0) = .next t ∧
      t.latch.c = 77 ∧ memRead t 21 = 2 ∧ t.pc = 1 ∧ t.fg = .e1 := ⟨_, rfl, rfl, rfl, rfl, rfl⟩

/-- I16: the second check ends the run, with the store and the program counter as they are. -/
theorem test_second_cancel_check : (microStep (holding cancelCode .e8)).fg = .x1 := by
  simp [microStep, secondCancelCheck, cancelObserved, holding, isCancel_iff]

/-! Host commands -/

/-- H1 -/
theorem test_read_low_nibble :
    ∃ t, exec (.read 1) (idleCore 0xA5) = .next t ∧ t.response = .datum 5 := ⟨_, rfl, rfl⟩
/-- H7 -/
theorem test_read_out_of_range : exec (.read 1024) (idleCore 0) = .fault (.addressOutOfRange 1024) := rfl
/-- H2 -/
theorem test_write_pair :
    ∃ t, exec (.write 7 0x34) (idleCore 0xFF) = .next t ∧ t.db[0] = 4 ∧ t.db[1] = 3 := ⟨_, rfl, rfl, rfl⟩
/-- M8 -/
theorem test_write_last_address :
    ∃ t, exec (.write 1023 0x01) (idleCore 0) = .next t ∧ memRead t 1023 = 1 ∧ t.mem = [(1023, 1)] :=
  ⟨_, rfl, rfl, rfl⟩
/-- K1 -/
theorem test_peekKey_held :
    ∃ t, exec .peekKey (holding 0x07 .idle) = .next t ∧ t.response = .datum 7 := ⟨_, rfl, rfl⟩
/-- K6 -/
theorem test_getKey_key_already_held :
    ∃ t u, exec .getKey (holding 0x0A .idle) = .next t ∧ microStep t = u ∧ u.fg = .getKey .host .gk2 ∧
      u.gk.k = 0x0A := ⟨_, _, rfl, rfl, rfl, rfl⟩
/-- H5 -/
theorem test_dbset_blank :
    ∃ t, exec (.dbset 3 0xFF) (idleCore 0) = .next t ∧ t.db[3] = 0xFF ∧ glyph t.db[3] = .blank := ⟨_, rfl, rfl, rfl⟩
/-- H6, Part C: E0 loads 10 -/
theorem test_run_starts_at_ten :
    ∃ t, exec .run (idleCore 0) = .next t ∧ (microStep t).pc = 10 ∧ (microStep t).fg = .e1 := ⟨_, rfl, rfl, rfl⟩

/-! Memory window, display and scanner -/

/-- M4 -/
theorem test_pair_read_is_odd_high :
    memRead (memWrite (memWrite State.reset 3 0xAB) 4 0xCD) 8 = 0xDB := rfl
/-- M5 -/
theorem test_pair_write_low_is_even : (memWrite State.reset 9 0xF0).db[4] = 0 ∧ (memWrite State.reset 9 0xF0).db[5] = 0x0F :=
  ⟨rfl, rfl⟩
/-- X2, X3 -/
theorem test_glyph_boundary : glyph 19 = .pattern (Config.seg 19) ∧ glyph 20 = .blank := ⟨rfl, rfl⟩
/-- S1, ticks 4 and 5 -/
theorem test_scan_arms_then_latches :
    (scan 0b1011 (scan 0b1011 { KeyboardState.reset with activeColumn := 3 })).currentCode = keyMatrix 2 3 ∧
      (scan 0b1011 { KeyboardState.reset with activeColumn := 3 }).currentCode = 0xFF := ⟨rfl, rfl⟩
/-- S4 -/
theorem test_scan_two_rows_release : (scan 0b1001 (holding 7 .idle).ks).keyHeld = false ∧
    (scan 0b1001 (holding 7 .idle).ks).activeColumn = 4 := ⟨rfl, rfl⟩
/-- S8 -/
theorem test_scan_column_wraps : (scan 0b1111 { KeyboardState.reset with activeColumn := 4 }).activeColumn = 0 := rfl

/-! Witnesses: each meets the hypotheses of the statement it is named after -/

theorem witness_ResetEventRestoresResetValues :
    isPlain (0 : Address).val = true ∧ isPlain (10 : Address).val = true ∧ isPlain (9 : Address).val = false := by decide
theorem witness_WindowSlotReadIsLowNibble :
    (1 : Address).val = (0 : Fin 6).val + 1 ∧ (6 : Address).val = (5 : Fin 6).val + 1 := by decide
theorem witness_PairReadJoinsLowNibbles :
    (7 : Address).val = 7 + (0 : Fin 3).val ∧ (9 : Address).val = 7 + (2 : Fin 3).val := by decide
/-- Both ends of the window, and the clauses at 19 and at 20. -/
theorem witness_SlotWriteStoresWholeByte :
    (1 : Address).val = (0 : Fin 6).val + 1 ∧ (6 : Address).val = (5 : Fin 6).val + 1 ∧
      (19 : Byte).toNat = (19 : Fin 20).val ∧ 19 < (20 : Byte).toNat := by decide
theorem witness_PairWriteSplitsByte :
    (7 : Address).val = 7 + (0 : Fin 3).val ∧ (9 : Address).val = 7 + (2 : Fin 3).val := by decide
theorem witness_StorageWriteStoresRawByte :
    (0 : Address).val = 0 ∧ 10 ≤ (10 : Address).val ∧ 10 ≤ (1023 : Address).val := by decide
theorem witness_ReadAfterWriteLaws :
    (7 : Address).val = 7 + (0 : Fin 3).val ∧ (1 : Address).val = 1 + 2 * (0 : Fin 3).val ∧
      (2 : Address).val = 2 + 2 * (0 : Fin 3).val ∧ (9 : Address).val = 7 + (2 : Fin 3).val ∧
      (5 : Address).val = 1 + 2 * (2 : Fin 3).val ∧ (6 : Address).val = 2 + 2 * (2 : Fin 3).val := by decide
theorem witness_WriteLeavesApartAddresses : Apart 8 1 ∧ Apart 3 7 ∧ Apart 0 10 ∧ ¬ Apart 7 1 := by
  unfold Apart; decide
/-- The clauses at 19 and at 20 (X2, X3). -/
theorem witness_TickLooksUpGlyph :
    (idleCore 19).db[(idleCore 19).currentDigit].toNat = (19 : Fin 20).val ∧
      19 < (idleCore 20).db[(idleCore 20).currentDigit].toNat := by decide
/-- The second clause: a foreground step. -/
theorem witness_TickEnablesDigitAndAdvances :
    (∃ t, step (inRun [(10, 20), (11, 21)] 10 0) = .next t) ∧ (inRun [(10, 20), (11, 21)] 10 0).arrivals.head? = none :=
  ⟨⟨_, rfl⟩, rfl⟩
theorem witness_TickReadsOneSlotOnly :
    TickStateKept State.reset (State.reset.setSlot 5 7) ∧
      (State.reset.setSlot 5 7).db[State.reset.currentDigit] = State.reset.db[State.reset.currentDigit] :=
  ⟨⟨rfl, rfl, rfl, rfl, rfl⟩, rfl⟩
theorem witness_FirstContactArms :
    contact 0b0111 = some 3 ∧ (scanning 1 .idle).ks.debounceLatch = false := by decide
/-- Armed and held (S1, S6). -/
theorem witness_SecondContactLatchesCode :
    contact 0b1110 = some 0 ∧ (tick 0b1011 (scanning 3 .idle)).ks.debounceLatch = true ∧
      (tick 0b1011 (scanning 3 .idle)).ks.keyHeld = false ∧ (holding 7 .idle).ks.debounceLatch = true ∧
      (holding 7 .idle).ks.keyHeld = true := ⟨rfl, rfl, rfl, rfl, rfl⟩
/-- No row low, two rows low, all rows low (S4). -/
theorem witness_NoContactReleasesAndAdvancesColumn :
    contact 0b1111 = none ∧ contact 0b1001 = none ∧ contact 0b0000 = none := by decide
theorem witness_DebounceNeedsTwoContacts :
    (scanning 3 .idle).ks.isIdle ∧ contact 0b1011 = some 2 ∧ contact 0b1110 = some 0 ∧
      (∀ rows ∈ [(0b0111 : Rows)], contact rows ≠ none) ∧ contact 0b1111 = none := by
  unfold KeyboardState.isIdle; decide
theorem scanning_sound (col : Fin 5) : SoundState (scanning col .idle) :=
  ⟨⟨.nil, by simp [scanning, State.reset, State.resetWith]⟩, ⟨by decide +revert, by decide +revert, .inl rfl⟩, rfl,
    .inl ⟨rfl, rfl, rfl⟩, trivial⟩
/-- The boundary counts: two ticks where the column is already driven, six for the column before it. -/
theorem witness_SteadyPressLatencyIsTwoToSixTicks :
    SoundState (scanning 3 .idle) ∧ (scanning 3 .idle).ks.isIdle ∧
      ((3 : Fin 5) - (scanning 3 .idle).ks.activeColumn).val + 2 = 2 ∧
      ((2 : Fin 5) - (scanning 3 .idle).ks.activeColumn).val + 2 = 6 := ⟨scanning_sound 3, ⟨rfl, rfl⟩, rfl, rfl⟩
theorem witness_PeekKeyAnswersLatchedCode : (holding 7 .idle).fg = .idle := rfl
theorem witness_GetKeyStartsPolling : (idleCore 0).fg = .idle := rfl
/-- Each clause: the sentinel, shift, a plain code; held and released. -/
theorem witness_GetKeyPollsAndReturnsCode :
    (scanning 3 (.getKey .host .gk1)).fg = .getKey .host .gk1 ∧
      (scanning 3 (.getKey .host .gk1)).ks.currentCode = 0xFF ∧
      (holding 0x4F (.getKey .host .gk1)).ks.currentCode = 0x4F ∧
      (holding 7 (.getKey .host .gk1)).ks.currentCode ≠ 0xFF ∧
      (holding 7 (.getKey .host .gk1)).ks.currentCode ≠ 0x4F ∧
      (holding 7 (.getKey .run .gk2)).fg = .getKey .run .gk2 ∧ (holding 7 (.getKey .run .gk2)).ks.keyHeld = true ∧
      (scanning 3 (.getKey .run .gk2)).ks.keyHeld = false := by decide
theorem witness_GetKeyPlainKeyAnswersAfterRelease :
    (holding 7 .idle).fg = .idle ∧ (holding 7 .idle).ks.currentCode ≠ 0xFF ∧
      (holding 7 .idle).ks.currentCode ≠ 0x4F ∧ contact 0b1111 = none := by decide
/-- Shift held on column 4; the second key is at row 2 of column 0. -/
theorem witness_ShiftSequenceAnswersSecondaryCode :
    ∃ s : State, s.fg = .getKey .host .gk1 ∧ s.ks.currentCode = 0x4F ∧ contact 0b1111 = none ∧
      contact 0b1011 = some 2 ∧
      keyMatrix 2 (s.ks.activeColumn + 1) = BitVec.ofNat 8 (Config.hexLayout ⟨8, by decide⟩).val :=
  ⟨{ holding 0x4F (.getKey .host .gk1) with
      ks := { (holding 0x4F (.getKey .host .gk1)).ks with activeColumn := 4 }, colDrive := 4 },
    rfl, rfl, rfl, rfl, rfl⟩
/-- Both sides of each bound. -/
theorem witness_SecondaryMapNeverGivesSentinel :
    (11 : Byte).toNat < 12 ∧ 12 ≤ (12 : Byte).toNat ∧ (15 : Byte).toNat < 16 ∧ 16 ≤ (16 : Byte).toNat := by decide
/-- A released key about to be returned (K2, step 9). -/
def returning : State := { scanning 4 (.getKey .host .gk2) with gk := { State.reset.gk with k := 7 } }
theorem returning_sound : SoundState returning :=
  ⟨⟨.nil, by simp [returning, scanning, State.reset, State.resetWith]⟩, ⟨by decide, by decide, .inl rfl⟩, rfl,
    .inl ⟨rfl, rfl, rfl⟩, by show returning.gk.k ≠ _ ∧ returning.gk.k ≠ _; decide⟩
theorem witness_GetKeyNeverAnswersSentinel :
    SoundState returning ∧ returning.fg = .getKey .host .gk2 ∧
      (∃ t, step returning = .next t ∧ t.fg = .idle ∧ t.response = .datum 7) ∧
      ∀ mem0 db0, returning.arrivals.head? ≠ some (.reset mem0 db0) :=
  ⟨returning_sound, rfl, ⟨_, rfl, rfl, rfl⟩, by simp [returning, scanning, State.reset, State.resetWith]⟩
/-- K2 from step 6. -/
theorem witness_GetKeyLeavesDisplayAsFound :
    (∀ x ∈ [Arrival.micro, .tick 0b1111, .micro], x.fromHost = false) ∧
      ∃ t, runs 3 ((holding 7 (.getKey .host .gk1)).withArrivals [.micro, .tick 0b1111, .micro]) = .next t ∧
        t.fg = .idle := ⟨by decide, _, rfl, rfl⟩
/-- K8, and the two key polls at GK1 and GK5. -/
theorem witness_GetKeyHasNoTimeout :
    (scanning 3 (.getKey .host .gk1)).fg = .getKey .host .gk1 ∧
      (scanning 3 (.getKey .run .gk5)).fg = .getKey .run .gk5 ∧
      (scanning 3 (.getKey .host .gk1)).ks.currentCode = 0xFF ∧
      (∀ x ∈ [Arrival.tick 0b1111, .micro], x.fromHost = false) ∧
      (∀ rows, Arrival.tick rows ∈ [Arrival.tick 0b1111, .micro] → contact rows = none) ∧
      ∃ t, runs 2 ((scanning 3 (.getKey .host .gk1)).withArrivals [.tick 0b1111, .micro]) = .next t := by
  refine ⟨rfl, rfl, rfl, by decide, ?_, _, rfl⟩
  intro rows h
  simp only [List.mem_cons, Arrival.tick.injEq, reduceCtorEq, List.not_mem_nil, or_false] at h
  subst h
  decide
/-- The release polls: a key held, and a tick that still sees it (K2, step 7). -/
theorem witness_GetKeyHasNoTimeout_held :
    (holding 7 (.getKey .host .gk2)).fg = .getKey .host .gk2 ∧
      (holding 0x4F (.getKey .run .gk4)).fg = .getKey .run .gk4 ∧ (holding 7 (.getKey .host .gk6)).fg = .getKey .host .gk6 ∧
      (holding 7 (.getKey .host .gk2)).ks.keyHeld = true ∧
      (∀ rows, Arrival.tick rows ∈ [Arrival.tick 0b1011, .micro] → contact rows ≠ none) ∧
      ∃ t, runs 2 ((holding 7 (.getKey .host .gk2)).withArrivals [.tick 0b1011, .micro]) = .next t := by
  refine ⟨rfl, rfl, rfl, rfl, ?_, _, rfl⟩
  intro rows h
  simp only [List.mem_cons, Arrival.tick.injEq, reduceCtorEq, List.not_mem_nil, or_false] at h
  subst h
  decide
theorem witness_SubleqStoresDifferenceAndBranches :
    (inRun [(20, 5)] 10 0).ks.currentCode ≠ cancelCode ∨ (inRun [(20, 5)] 10 0).ks.currentCode = 0xFF := .inr rfl
/-- Each clause: the instruction (I14), the second check with the cancel code latched (I16), both without it. -/
theorem witness_SubleqCancelledKeepsItsStore :
    (holding cancelCode .e1).ks.currentCode = cancelCode ∧ (holding cancelCode .e6).fg = .e6 ∧
      (holding cancelCode .e8).fg = .e8 ∧ (scanning 3 .e6).ks.currentCode ≠ cancelCode ∧ (scanning 3 .e6).fg = .e6 ∧
      (scanning 3 .e8).fg = .e8 :=
  ⟨rfl, rfl, rfl, fun h => cancelCode_ne_sentinel h.symm, rfl, rfl⟩
theorem witness_SubleqFrame : ∃ t, exec (.subleq 31 1 13) (inRun [(31, 5)] 10 3) = .next t ∧
    Apart 8 (operandAddress 1) ∧ (1 : Fin 6) ∉ slotsOf (operandAddress 1) :=
  ⟨_, rfl, by unfold Apart; decide, by decide⟩
/-- A slot, a pair. -/
theorem witness_SameCellClearsAndBranches :
    (inRun [] 10 0xFF).ks.currentCode = 0xFF ∧ (0 : Fin 6) ∈ slotsOf (operandAddress 1) ∧
      (5 : Fin 6) ∈ slotsOf (operandAddress 9) := by decide
/-- P5, first instruction. -/
theorem witness_SelfModificationUsesFetchedTarget :
    (inRun [(10, 40), (11, 12), (12, 20), (40, 20)] 10 0).fg = .e1 ∧
      (inRun [(10, 40), (11, 12), (12, 20), (40, 20)] 10 0).arrivals = [] ∧
      (inRun [(10, 40), (11, 12), (12, 20), (40, 20)] 10 0).ks.currentCode = 0xFF ∧
      fetchBytes (inRun [(10, 40), (11, 12), (12, 20), (40, 20)] 10 0) = [40, 12, 20] ∧
      (12 : Byte) = (inRun [(10, 40), (11, 12), (12, 20), (40, 20)] 10 0).pc + 2 ∧
      subleqValue 40 12 (inRun [(10, 40), (11, 12), (12, 20), (40, 20)] 10 0) = 0 := ⟨rfl, rfl, rfl, rfl, rfl, rfl⟩
/-- I9 to I11: each clause. -/
theorem witness_FallThroughWrapsAtTheTop :
    (inRun [(20, 1), (21, 3)] 253 0).ks.currentCode = 0xFF ∧
      subleqValue 20 21 (inRun [(20, 1), (21, 3)] 253 0) ≠ 0 ∧
      subleqValue 20 21 (inRun [(20, 1), (21, 3)] 254 0) ≠ 0 ∧
      subleqValue 20 21 (inRun [(20, 1), (21, 3)] 255 0) ≠ 0 ∧
      (inRun [] 253 0).pc = 253 ∧ (inRun [] 254 0).pc = 254 ∧ (inRun [] 255 0).pc = 255 := by decide
/-- No key latched, and the cancel code latched. -/
theorem witness_MicroStepsComposeToInstruction :
    (inRun [(10, 20), (11, 21)] 10 0).fg = .e1 ∧ fetchBytes (inRun [(10, 20), (11, 21)] 10 0) = [20, 21, 0] ∧
      cancelObserved (inRun [(10, 20), (11, 21)] 10 0) = false ∧ (holding cancelCode .e1).fg = .e1 ∧
      fetchBytes (holding cancelCode .e1) = [0, 0, 0] ∧ cancelObserved (holding cancelCode .e1) = true :=
  ⟨rfl, rfl, rfl, rfl, rfl, (isCancel_iff cancelCode).2 rfl⟩
theorem witness_TicksCannotDisturbInstruction :
    ([[0b1111], [], [], [0b1011], [0b1011], [], [], []] : List (List Rows)).length = 8 ∧
      (inRun [(10, 20), (11, 21)] 10 0).fg = .e1 ∧
      fetchBytes (inRun [(10, 20), (11, 21)] 10 0) = [20, 21, 0] := ⟨rfl, rfl, rfl⟩
theorem witness_TickAndMicroStepCommute :
    (inRun [(10, 20)] 10 0).fg.readsKeyboard = false ∧
      (microStep (inRun [(10, 20)] 10 0)).db[(inRun [(10, 20)] 10 0).currentDigit] =
        (inRun [(10, 20)] 10 0).db[(inRun [(10, 20)] 10 0).currentDigit] := ⟨rfl, rfl⟩
theorem witness_KeyboardInvisibleToInstruction :
    isCancel (inRun [] 10 0).ks.currentCode = false ∧ isCancel (scanning 3 .idle).ks.currentCode = false ∧
      (inRun [] 10 0).ks ≠ (scanning 3 .idle).ks := by decide
theorem witness_RunStartsAtTen : (idleCore 0xFF).fg = .idle := rfl
/-- Each clause. -/
theorem witness_LoopEndsAtZeroAndAwaitsAcknowledgement :
    (scanning 0 .e9).fg = .e9 ∧ (scanning 0 .e9).pc = 0 ∧ (scanning 0 .x1).fg = .x1 ∧
      (scanning 0 (.getKey .run .gk8)).fg = .getKey .run .gk8 := by decide
theorem witness_ProgramResultStaysAfterExit :
    (scanning 3 .x1).fg = .x1 ∧ (∀ x ∈ [Arrival.micro, .tick 0b1111], x.fromHost = false) ∧
      ∃ t, runs 2 ((scanning 3 .x1).withArrivals [.micro, .tick 0b1111]) = .next t := ⟨rfl, by decide, _, rfl⟩
/-- P1; the key at row 2 of column 0 is a hex digit. -/
theorem witness_RunOfHaltingProgramCompletes :
    ({ inRun [(10, 20), (11, 21), (20, 5), (21, 5)] 0 0 with fg := .idle } : State).ks.isIdle ∧
      ({ inRun [(10, 20), (11, 21), (20, 5), (21, 5)] 0 0 with fg := .idle } : State).ks.currentCode = 0xFF ∧
      fetchBytes (inRun [(10, 20), (11, 21), (20, 5), (21, 5)] 10 0) = [20, 21, 0] ∧
      subleqValue 20 21 (inRun [(10, 20), (11, 21), (20, 5), (21, 5)] 0 0) = 0 ∧ contact 0b1011 = some 2 ∧
      keyMatrix 2 0 ≠ 0x4F ∧ contact 0b1111 = none := by
  refine ⟨⟨rfl, rfl⟩, rfl, rfl, rfl, rfl, ?_, rfl⟩
  intro h
  have := congrArg BitVec.toNat h
  simp [keyMatrix] at this
  omega
/-- The last address in range, and both ends of the range above it. -/
theorem witness_ReadAnswersByteOrReportsOutOfRange :
    (idleCore 0xA5).fg = .idle ∧ (1023 : HostAddr).toNat = (1023 : Address).val ∧ 1024 ≤ (1024 : HostAddr).toNat ∧
      1024 ≤ (65535 : HostAddr).toNat ∧ (idleCore 0xA5).db[0] = 0xA5 := by decide
theorem witness_WriteStoresByteOrReportsOutOfRange :
    (idleCore 0).fg = .idle ∧ (1023 : HostAddr).toNat = (1023 : Address).val ∧ 1024 ≤ (1024 : HostAddr).toNat ∧
      1024 ≤ (65535 : HostAddr).toNat := by decide
theorem witness_DbsetStoresWholeSlotLikeWrite :
    (idleCore 0).fg = .idle ∧ (0 : BitVec 3).toNat = (0 : Fin 6).val ∧ (5 : BitVec 3).toNat = (5 : Fin 6).val ∧
      6 ≤ (6 : BitVec 3).toNat ∧ 6 ≤ (7 : BitVec 3).toNat := by decide
/-- A command of each shape: one that stores nothing, `WRITE`, `DBSET`. -/
theorem witness_HostCommandsFrame :
    (∃ t, exec .run (idleCore 0) = .next t) ∧ (∃ t, exec (.write 7 0x34) (idleCore 0) = .next t) ∧
      resolveAddress 7 = some 7 ∧ Apart 3 7 ∧ (∃ t, exec (.dbset 3 0xFF) (idleCore 0) = .next t) ∧
      slotIndex 3 ≠ some 2 :=
  ⟨⟨_, rfl⟩, ⟨_, rfl⟩, by decide, by unfold Apart; decide, ⟨_, rfl⟩, by decide⟩
/-- H10, and H9 while busy. -/
theorem witness_CommandsRefusedWhileBusy :
    (∀ a b c, Instr.peekKey ≠ .subleq a b c) ∧ (scanning 3 (.getKey .host .gk1)).fg ≠ .idle ∧
      decodeCommand 0x2000000 = .instr .peekKey ∧ decodeCommand 0x6000000 = .rejected (.reservedCode 6) :=
  ⟨nofun, by decide, by decide, by decide⟩
theorem witness_ReservedCommandWordsRefused :
    6 ≤ (6 : HostAddr).toNat % 8 ∧ 6 ≤ (0xFFFF : HostAddr).toNat % 8 := by decide
theorem witness_OnlyHostCommandsStop :
    step ((idleCore 0).withArrivals [.command 0x0040000]) = .fault (.addressOutOfRange 1024) ∧
      step ((idleCore 0).withArrivals [.command 0x6000000]) = .refused (.reservedEncoding (.reservedCode 6)) :=
  ⟨rfl, rfl⟩
theorem witness_StepRunsDecodedInstruction :
    (inRun [(10, 20), (11, 21)] 10 0).fg = .e1 ∧
      decode (fetchBytes (inRun [(10, 20), (11, 21)] 10 0)) = .instr (.subleq 20 21 0) := ⟨rfl, rfl⟩
theorem witness_StepRunsOfferedCommand : decodeCommand 0x1000734 = .instr (.write 7 0x34) := by decide
theorem witness_ForegroundChangesNoTickState :
    (∃ t, step (inRun [(10, 20), (11, 21)] 10 0) = .next t) ∧
      (∀ rows, (inRun [(10, 20), (11, 21)] 10 0).arrivals.head? ≠ some (.tick rows)) ∧
      ∀ mem0 db0, (inRun [(10, 20), (11, 21)] 10 0).arrivals.head? ≠ some (.reset mem0 db0) :=
  ⟨⟨_, rfl⟩, by simp [inRun, State.reset, State.resetWith], by simp [inRun, State.reset, State.resetWith]⟩
theorem witness_StepKeepsInvariant : SoundState returning ∧ ∃ t, step returning = .next t :=
  ⟨returning_sound, _, rfl⟩
theorem witness_DecodeOfEncodeIsIdentity :
    (Instr.dbset 5 0xFF).wellFormed = true ∧ (Instr.subleq 255 255 255).wellFormed = true := by decide
theorem witness_DecodedInstructionsAreWellFormed : decode [4, 0, 5, 255] = .instr (.dbset 5 255) := by decide

end Sys2Proof.Tests
end

section
/-! Proofs, family `00_scope.md`: which steps stop, and on what (R13, R70, R108, R200, R220). -/

namespace Sys2Proof

/-! What the decoder of command words can answer (R107, R108) -/

theorem decodeCommand_of_reservedCode {w : CommandWord} (h : 6 ≤ (commandCode w).toNat) :
    decodeCommand w = .rejected (.reservedCode (commandCode w)) := by
  unfold decodeCommand
  split
  case h_7 => rfl
  all_goals omega

theorem decodeCommand_of_dbset {w : CommandWord} (h : (commandCode w).toNat = 4) :
    decodeCommand w =
      if slotInRange (commandSlot w) then .instr (.dbset (commandSlot w) (commandData w))
      else .rejected (.reservedSlot (commandSlot w)) := by
  simp only [decodeCommand, h]

theorem decodeCommand_of_reservedSlot {w : CommandWord} (h : (commandCode w).toNat = 4)
    (hs : 6 ≤ (commandSlot w).toNat) : decodeCommand w = .rejected (.reservedSlot (commandSlot w)) := by
  have hr : slotInRange (commandSlot w) = false := by simp [slotInRange, hs]
  simp [decodeCommand_of_dbset h, hr]

/-- Inversion of the decoder: each instruction a command word can stand for, with the code that gives it. -/
theorem decodeCommand_eq_instr {w : CommandWord} {i : Instr} (h : decodeCommand w = .instr i) :
    ((commandCode w).toNat = 0 ∧ i = .read (commandAddr w)) ∨
      ((commandCode w).toNat = 1 ∧ i = .write (commandAddr w) (commandData w)) ∨
      ((commandCode w).toNat = 2 ∧ i = .peekKey) ∨ ((commandCode w).toNat = 3 ∧ i = .getKey) ∨
      ((commandCode w).toNat = 4 ∧ slotInRange (commandSlot w) = true ∧
        i = .dbset (commandSlot w) (commandData w)) ∨
      ((commandCode w).toNat = 5 ∧ i = .run) := by
  unfold decodeCommand at h
  split at h
  case h_5 =>
    split at h
    · simp_all
    · cases h
  all_goals simp_all

/-- No command word stands for a `SUBLEQ`: the emulated machine's instruction comes from memory only (R107). -/
theorem decodeCommand_ne_subleq {w : CommandWord} {i : Instr} (h : decodeCommand w = .instr i) (a b c : Byte) :
    i ≠ .subleq a b c := by
  obtain ⟨-, rfl⟩ | ⟨-, rfl⟩ | ⟨-, rfl⟩ | ⟨-, rfl⟩ | ⟨-, -, rfl⟩ | ⟨-, rfl⟩ := decodeCommand_eq_instr h <;> nofun

namespace Machine

/-! What a command does when it stops (R13, R200) -/

/-- Every host command is accepted or refused as busy before anything else (R200). -/
theorem exec_eq_accept {i : Instr} (hi : ∀ a b c, i ≠ .subleq a b c) :
    ∃ body, ∀ s, exec i s = accept s body := by
  cases i with
  | subleq a b c => exact absurd rfl (hi a b c)
  | read | write | peekKey | getKey | dbset | run =>
    simp only [exec, execRead, execWrite, execPeekKey, execGetKey, execDbset, execRun]
    exact ⟨_, fun _ => rfl⟩

theorem exec_busy {i : Instr} (hi : ∀ a b c, i ≠ .subleq a b c) {s : State} (h : s.fg ≠ .idle) :
    exec i s = .refused .busy := by
  obtain ⟨body, hbody⟩ := exec_eq_accept hi
  exact (hbody s).trans (accept_busy h body)

theorem accept_eq_fault {s : State} {body : State → Host.Outcome State Fault Refusal} {f : Fault}
    (h : accept s body = .fault f) : s.fg = .idle ∧ body (s.respond .nothing) = .fault f := by
  by_cases hidle : s.fg = .idle
  · exact ⟨hidle, (accept_idle hidle body).symm.trans h⟩
  · rw [accept_busy hidle] at h
    cases h

/-- The one fault of the machine: an idle core's `READ` or `WRITE` at 1024 or above (R70, R220). -/
theorem exec_eq_fault {i : Instr} {s : State} {f : Fault} (h : exec i s = .fault f) :
    s.fg = .idle ∧ ∃ addr, (i = .read addr ∨ ∃ data, i = .write addr data) ∧
      f = .addressOutOfRange addr ∧ 1024 ≤ addr.toNat := by
  cases i with
  | subleq a b c => simp [exec, execSubleq_eq] at h
  | read addr =>
    simp only [exec, execRead] at h
    obtain ⟨hidle, hbody⟩ := accept_eq_fault h
    split at hbody
    next => cases hbody
    next hr => cases hbody; exact ⟨hidle, addr, .inl rfl, rfl, resolveAddress_eq_none hr⟩
  | write addr data =>
    simp only [exec, execWrite] at h
    obtain ⟨hidle, hbody⟩ := accept_eq_fault h
    split at hbody
    next => cases hbody
    next hr => cases hbody; exact ⟨hidle, addr, .inr ⟨data, rfl⟩, rfl, resolveAddress_eq_none hr⟩
  | dbset slot data =>
    simp only [exec, execDbset] at h
    obtain ⟨-, hbody⟩ := accept_eq_fault h
    split at hbody <;> cases hbody
  | peekKey | getKey | run =>
    simp only [exec, execPeekKey, execGetKey, execRun] at h
    obtain ⟨-, hbody⟩ := accept_eq_fault h
    cases hbody

/-- A fault of a decoded command word, in terms of the word's fields (R70, R107). -/
theorem execDecoded_decodeCommand_eq_fault {w : CommandWord} {s : State} {f : Fault}
    (h : execDecoded (decodeCommand w) s = .fault f) :
    s.fg = .idle ∧ f = .addressOutOfRange (commandAddr w) ∧ 1024 ≤ (commandAddr w).toNat ∧
      (commandCode w).toNat ≤ 1 := by
  cases hd : decodeCommand w with
  | rejected e => rw [hd] at h; cases h
  | instr i =>
    rw [hd] at h
    obtain ⟨hidle, addr, hi, rfl, hge⟩ := exec_eq_fault h
    obtain ⟨hc, rfl⟩ | ⟨hc, rfl⟩ | ⟨-, rfl⟩ | ⟨-, rfl⟩ | ⟨-, -, rfl⟩ | ⟨-, rfl⟩ := decodeCommand_eq_instr hd
    · obtain rfl : commandAddr w = addr := by simpa using hi
      exact ⟨hidle, rfl, hge, by omega⟩
    · obtain rfl : commandAddr w = addr := by simpa using hi
      exact ⟨hidle, rfl, hge, by omega⟩
    all_goals simp at hi

/-- The foreground, a whole instruction or one micro-step, always goes on (R220). -/
theorem proceed_next (s : State) : ∃ t, proceed s = .next t := by
  rw [proceed_eq]
  split
  · exact ⟨_, execSubleq_eq ..⟩
  · exact ⟨_, rfl⟩

/-- A step goes on unless it handles a command word of the host (R13). -/
theorem step_next_or_command (s : State) :
    (∃ t, step s = .next t) ∨
      ∃ w rest, s.arrivals = .command w :: rest ∧
        step s = execDecoded (decodeCommand w) (s.withArrivals rest) := by
  obtain ⟨-, h⟩ | ⟨rest, ⟨_, -, h⟩ | ⟨w, ha, h⟩ | ⟨_, _, -, h⟩ | ⟨-, h⟩ | ⟨-, h⟩⟩ := step_cases s
  · exact .inl (h ▸ proceed_next s)
  · exact .inl ⟨_, h⟩
  · exact .inr ⟨w, rest, ha, h⟩
  · exact .inl ⟨_, h⟩
  · exact .inl ⟨_, h⟩
  · exact .inl (h ▸ proceed_next _)

theorem step_command_of_rejected {w : CommandWord} {e : DecodeError} (h : decodeCommand w = .rejected e) (s : State)
    (rest : List Arrival) :
    step (s.withArrivals (.command w :: rest)) = .refused (.reservedEncoding e) := by
  rw [step_command, h, execDecoded]

end Machine

open Machine

/-- Settles O51: only a command arrival can fail to go on, and the one fault `exec` knows is that of `READ` and
`WRITE`. -/
theorem onlyHostCommandsStop : Obligations.OnlyHostCommandsStop := by
  intro s
  obtain ⟨t, h⟩ | ⟨w, rest, ha, h⟩ := step_next_or_command s
  · simp [h]
  · refine ⟨fun f hf => ?_, fun _ _ => ⟨w, rest, ha⟩⟩
    obtain ⟨hidle, hfault⟩ := execDecoded_decodeCommand_eq_fault (h.symm.trans hf)
    exact ⟨w, rest, ha, hidle, hfault⟩

/-- Settles O49: every host command goes through `accept`, and no command word decodes to a `SUBLEQ`. -/
theorem commandsRefusedWhileBusy : Obligations.CommandsRefusedWhileBusy := by
  intro s hbusy
  refine ⟨fun i hi => exec_busy hi hbusy, fun w rest => ⟨fun i hd => ?_, fun e hd => ?_⟩⟩
  · rw [step_command, hd]
    exact exec_busy (decodeCommand_ne_subleq hd) hbusy
  · exact step_command_of_rejected hd s rest

/-- Settles O50: the decoder rejects these words from the code, or from the code and the slot bits, alone. -/
theorem reservedCommandWordsRefused : Obligations.ReservedCommandWordsRefused := by
  intro s rest addr data
  have hcode (code : BitVec 3) (h : 6 ≤ code.toNat) :
      decodeCommand (commandWord code addr data) = .rejected (.reservedCode code) := by
    simpa using decodeCommand_of_reservedCode (w := commandWord code addr data) (by simpa using h)
  have hslot (h : 6 ≤ addr.toNat % 8) :
      decodeCommand (commandWord 4 addr data) = .rejected (.reservedSlot (addr.setWidth 3)) := by
    simpa using decodeCommand_of_reservedSlot (w := commandWord 4 addr data) (by simp) (by simpa using h)
  exact ⟨step_command_of_rejected (hcode 6 (by decide)) s rest, step_command_of_rejected (hcode 7 (by decide)) s rest,
    fun h => step_command_of_rejected (hslot h) s rest⟩

end Sys2Proof
end

section
/-! Proofs, family `10_state.md`: reset, who owns which state, and the invariant every step keeps (R39, R40, R45,
R47). -/

namespace Sys2Proof

namespace Machine

/-! Tick-owned state: what keeps it (R47) -/

theorem TickStateKept.trans {s t u : State} (h : TickStateKept s t) (h' : TickStateKept t u) : TickStateKept s u :=
  ⟨h'.ks.trans h.ks, h'.currentDigit.trans h.currentDigit, h'.digitSel.trans h.digitSel, h'.segOut.trans h.segOut,
    h'.colDrive.trans h.colDrive⟩

theorem withArrivals_tickStateKept (s : State) (rest : List Arrival) : TickStateKept s (s.withArrivals rest) :=
  ⟨rfl, rfl, rfl, rfl, rfl⟩

/-! Memory reads and writes: what a write cannot reach (R61, R66 to R69) -/

@[simp] theorem memRead_respond (s : State) (r : Response) (a : Address) : memRead (s.respond r) a = memRead s a :=
  memRead_congr rfl rfl a

@[simp] theorem memRead_goto (s : State) (p : Phase) (a : Address) : memRead (s.goto p) a = memRead s a :=
  memRead_congr rfl rfl a

theorem memRead_of_isPlain (s : State) {x : Address} (h : isPlain x.val = true) : memRead s x = s.mem.read x.val := by
  simp only [isPlain, decide_eq_true_eq] at h
  simp only [memRead, backing_plain h.2]

/-- A write changes only the slots its address reaches. -/
theorem memWrite_slot_of_notMem (s : State) {a : Address} (v : Byte) {i : Fin 6} (hi : i ∉ slotsOf a) :
    (memWrite s a v).slot i = s.slot i := by
  obtain ⟨-, e⟩ | ⟨j, hb, e⟩ | ⟨j, k, hb, e⟩ := memWrite_cases s a v
  · rw [e, State.slot_setMem]
  · simp only [slotsOf, hb, List.mem_singleton] at hi
    rw [e, State.slot_setSlot, if_neg (Ne.symm hi)]
  · simp only [slotsOf, hb, List.mem_cons, List.not_mem_nil, or_false, not_or] at hi
    rw [e, State.slot_setSlot, if_neg (Ne.symm hi.2), State.slot_setSlot, if_neg (Ne.symm hi.1)]

/-- A write changes at most the one byte of plain storage at its address. -/
theorem memWrite_read_mem_of_ne (s : State) {a x : Address} (v : Byte) (hx : x ≠ a) :
    (memWrite s a v).mem.read x.val = s.mem.read x.val := by
  obtain ⟨-, e⟩ | ⟨j, -, e⟩ | ⟨j, k, -, e⟩ := memWrite_cases s a v
  · rw [e, State.setMem_mem, Memory.read_write, if_neg (fun h => hx (Fin.ext h))]
  · rw [e, State.setSlot_mem]
  · rw [e, State.setSlot_mem, State.setSlot_mem]

/-- A read does not see a write at an address that shares no element with its own. -/
theorem memRead_memWrite_of_apart (s : State) {a x : Address} (v : Byte) (h : Apart x a) :
    memRead (memWrite s a v) x = memRead s x := by
  obtain ⟨hne, hslots⟩ := h
  have hslot : ∀ i ∈ slotsOf x, (memWrite s a v).slot i = s.slot i :=
    fun i hi => memWrite_slot_of_notMem s v (hslots i hi)
  obtain ⟨hb, -⟩ | ⟨i, hb, -⟩ | ⟨-, i, j, hb, -⟩ := backing_cases x
  · simp only [memRead, hb, memWrite_read_mem_of_ne s v hne]
  · simp only [memRead, hb, hslot i (by simp [slotsOf, hb])]
  · simp only [memRead, hb, hslot i (by simp [slotsOf, hb]), hslot j (by simp [slotsOf, hb])]

/-! What an instruction that goes on has done -/

/-- A `SUBLEQ` always goes on: one byte written, the latches, the program counter and the phase set; the next
instruction begins at a program counter other than 0, or the run leaves for X1 (R183, R195). -/
theorem exec_subleq_eq_next {a b c : Byte} {s t : State} (h : exec (.subleq a b c) s = .next t) :
    (∃ v, t = { memWrite s (operandAddress b) v with latch := t.latch, pc := t.pc, fg := t.fg }) ∧
      (t.fg = .x1 ∨ t.fg = .e1 ∧ t.pc ≠ 0) := by
  rw [exec, execSubleq_eq] at h
  cases h
  refine ⟨⟨_, rfl⟩, ?_⟩
  cases hc : cancelObserved s with
  | true => simp
  | false =>
    simp only [Bool.false_eq_true, true_and, if_false]
    generalize (if branchTaken _ = true then c else _ : Byte) = pc
    by_cases hpc : pc = 0#8 <;> simp [runGoesOn, hpc]

/-- The states a host command answers from an idle core: a byte written, a slot written, or only the phase and the
port's result set (R201 to R206). -/
theorem exec_eq_next {i : Instr} (hi : ∀ a b c, i ≠ .subleq a b c) {s t : State} (h : exec i s = .next t) :
    s.fg = .idle ∧
      ((∃ addr v a, i = .write addr v ∧ resolveAddress addr = some a ∧
          t = (memWrite (s.respond .nothing) a v).respond .done) ∨
        (∃ slot v j, i = .dbset slot v ∧ slotIndex slot = some j ∧
          t = ((s.respond .nothing).setSlot j v).respond .done) ∨
        ((∀ addr v, i ≠ .write addr v) ∧ (∀ slot v, i ≠ .dbset slot v) ∧
          ∃ p r, t = (s.goto p).respond r ∧ (p = .idle ∨ p = .getKey .host .gk1 ∨ p = .e0))) := by
  have hidle : s.fg = .idle := by
    by_contra hbusy
    rw [exec_busy hi hbusy] at h
    cases h
  refine ⟨hidle, ?_⟩
  have hstay : s.goto .idle = s := by rw [State.goto, ← hidle]
  cases i with
  | subleq a b c => exact absurd rfl (hi a b c)
  | read addr =>
    simp only [exec, execRead, accept_idle hidle] at h
    split at h
    · cases h
      exact .inr (.inr ⟨nofun, nofun, .idle, _, by rw [hstay]; rfl, .inl rfl⟩)
    · cases h
  | write addr v =>
    simp only [exec, execWrite, accept_idle hidle] at h
    split at h
    next a ha => cases h; exact .inl ⟨addr, v, a, rfl, ha, rfl⟩
    next => cases h
  | peekKey =>
    simp only [exec, execPeekKey, accept_idle hidle] at h
    cases h
    exact .inr (.inr ⟨nofun, nofun, .idle, _, by rw [hstay]; rfl, .inl rfl⟩)
  | getKey =>
    simp only [exec, execGetKey, accept_idle hidle] at h
    cases h
    exact .inr (.inr ⟨nofun, nofun, _, .nothing, rfl, .inr (.inl rfl)⟩)
  | dbset slot v =>
    simp only [exec, execDbset, accept_idle hidle] at h
    split at h
    next j hj => cases h; exact .inr (.inl ⟨slot, v, j, rfl, hj, rfl⟩)
    next => cases h
  | run =>
    simp only [exec, execRun, accept_idle hidle] at h
    cases h
    exact .inr (.inr ⟨nofun, nofun, _, .nothing, rfl, .inr (.inr rfl)⟩)

/-- Only a tick changes tick-owned state: no instruction does. -/
theorem exec_tickStateKept {i : Instr} {s t : State} (h : exec i s = .next t) : TickStateKept s t := by
  by_cases hi : ∀ a b c, i ≠ .subleq a b c
  · obtain ⟨-, ⟨_, v, a, -, -, rfl⟩ | ⟨_, v, j, -, -, rfl⟩ | ⟨-, -, p, r, rfl, -⟩⟩ := exec_eq_next hi h
    · constructor <;> simp
    · constructor <;> rfl
    · constructor <;> rfl
  · push Not at hi
    obtain ⟨a, b, c, rfl⟩ := hi
    obtain ⟨⟨v, ht⟩, -⟩ := exec_subleq_eq_next h
    rw [ht]
    constructor <;> simp

theorem proceed_tickStateKept {s t : State} (h : proceed s = .next t) : TickStateKept s t := by
  rw [proceed_eq] at h
  split at h
  · exact exec_tickStateKept (i := .subleq _ _ _) h
  · cases h
    exact (microStep_frame s).1

theorem execDecoded_tickStateKept {d : Decoded} {s t : State} (h : execDecoded d s = .next t) : TickStateKept s t := by
  cases d with
  | instr i => exact exec_tickStateKept h
  | rejected e => cases h

theorem tick_foregroundStateKept (rows : Rows) (s : State) : ForegroundStateKept s (tick rows s) := by
  constructor <;> simp

/-! Reset (R45, R240) -/

/-- What memory made of cells reads at an address of plain storage: the first cell listed for it, else 0 (R32). -/
theorem Memory.read_ofCells (cells : List Host.Cell) {x : Nat} (hx : isPlain x = true) :
    Memory.read (Memory.ofCells cells) x = ((cells.find? (fun c => c.1 == x)).map Prod.snd).getD 0 := by
  induction cells with
  | nil => rfl
  | cons c cells ih =>
    by_cases hc : c.1 = x
    · subst hc
      simp [Memory.ofCells, hx, Memory.read_write]
    · by_cases hp : isPlain c.1 = true <;> simp [Memory.ofCells, hp, hc, Memory.read_write, Ne.symm hc, ih]

/-! The secondary map (R43(c), R166, R167) -/

theorem secondaryCode_mem (i : Fin 4) : secondaryCode i ∈ [(0x5F : Byte), 0x6F, 0x7F, 0x8F] := by
  fin_cases i <;> decide

theorem secondaryMap_of_lt_twelve {d : Byte} (h : d.toNat < 12) (n : Nat) : secondaryMap d n = (0, n) := by
  rw [secondaryMap, dif_pos (by omega), secondaryKey, dif_neg (by simpa using h)]

theorem secondaryMap_of_lt_sixteen {d : Byte} (h : 12 ≤ d.toNat) (h' : d.toNat < 16) (n : Nat) :
    secondaryMap d n = (secondaryCode (Config.secondaryLayout ⟨d.toNat - 12, by omega⟩), n) := by
  rw [secondaryMap, dif_pos h', secondaryKey, dif_pos h]

theorem secondaryMap_of_ge {d : Byte} (h : 16 ≤ d.toNat) (n : Nat) : secondaryMap d n = (drawnCode n, n + 1) := by
  rw [secondaryMap, dif_neg (by omega)]

theorem secondaryMap_ne_sentinel (d : Byte) (n : Nat) : (secondaryMap d n).1 ≠ Config.sentinel := by
  unfold secondaryMap
  split
  · exact secondaryKey_ne_sentinel _
  · exact drawnCode_ne_sentinel n

/-! The invariant: the Keyboard State and the outputs, which ticks change (R39, R127) -/

theorem reset_keyboard_inv : KeyboardState.reset.Inv := ⟨by decide, by decide, .inl rfl⟩

/-- Every scan keeps the Keyboard State's invariants: a release clears, a first contact arms, a second latches a
matrix entry, which is never the sentinel (R39, R142 to R144). -/
theorem scan_inv (rows : Rows) {ks : KeyboardState} (h : ks.Inv) : (scan rows ks).Inv := by
  obtain ⟨hlatched, hcode, hprimary⟩ := h
  cases hr : contact rows with
  | none =>
    rw [scan_none hr]
    exact ⟨by simp, by simp, .inl rfl⟩
  | some r =>
    cases hl : ks.debounceLatch with
    | false =>
      rw [scan_arm hr hl]
      exact ⟨fun _ => rfl, hcode, hprimary⟩
    | true =>
      cases hh : ks.keyHeld with
      | false =>
        rw [scan_latch hr hl hh]
        exact ⟨fun _ => hl, by simp [keyMatrix_ne_sentinel], .inr ⟨_, _, rfl⟩⟩
      | true =>
        rw [scan_hold hr hl hh]
        exact ⟨hlatched, hcode, hprimary⟩

/-- The driven column is the active one after a tick: both stay in contact, both advance without (R144, R148). -/
theorem tick_columnDriven (rows : Rows) {s : State} (h : s.colDrive = s.ks.activeColumn) :
    (tick rows s).colDrive = (tick rows s).ks.activeColumn := by
  rw [tick_colDrive, tick_ks, columnAfter]
  cases hr : contact rows with
  | none => simp [scan_none hr]
  | some r =>
    have hcol : (scan rows s.ks).activeColumn = s.ks.activeColumn := by
      simp only [scan, hr]
      split <;> [rfl; split <;> rfl]
    simpa [hcol] using h

/-- After a tick the digit before the current one is enabled, with its pattern (R123, R124). -/
theorem tick_outputsConsistent (rows : Rows) (s : State) : outputsConsistent (tick rows s) :=
  .inr ⟨s.currentDigit, tick_digitSel rows s, by simp [Fin.val_add], _, tick_segOut rows s⟩

theorem outputsConsistent_of_tickStateKept {s t : State} (h : TickStateKept s t) (hs : outputsConsistent s) :
    outputsConsistent t := by
  unfold outputsConsistent
  rw [h.digitSel, h.segOut, h.currentDigit]
  exact hs

/-! The invariant: what each phase relies on, which the foreground changes (R163, R165, R168, R183) -/

/-- What a phase relies on is foreground-owned state. -/
theorem phaseSound_of_foregroundStateKept {s t : State} (h : ForegroundStateKept s t) (hs : phaseSound s) :
    phaseSound t := by
  unfold phaseSound displayFilled at *
  rw [h.fg, h.pc, h.gk, h.db]
  exact hs

theorem nextSlot_eq_some {i j : Fin 6} (h : nextSlot i = some j) : j.val = i.val + 1 := by
  unfold nextSlot at h
  split at h <;> cases h
  rfl

theorem nextSlot_eq_none {i : Fin 6} (h : nextSlot i = none) : i.val = 5 := by
  unfold nextSlot at h
  split at h
  · cases h
  · omega

/-- One more slot filled: with those before slot i filled, all up to it are (R165). -/
theorem setSlot_shiftFill_of_le {s : State} {i : Fin 6} (h : ∀ j : Fin 6, j < i → s.db[j] = Config.shiftFill)
    {j : Fin 6} (hj : j ≤ i) : (s.setSlot i Config.shiftFill).db[j] = Config.shiftFill := by
  have hslot := State.slot_setSlot s i j Config.shiftFill
  by_cases hij : i = j
  · rwa [if_pos hij] at hslot
  · rw [if_neg hij] at hslot
    exact hslot.trans (h j (lt_of_le_of_ne hj (Ne.symm hij)))

/-- Every micro-step of `GetKey` hands the next one what it relies on (R163, R165, R168). -/
theorem getKeyStep_phaseSound {caller : Caller} {p : GetKeyPhase} {s : State} (hfg : s.fg = .getKey caller p)
    (h : phaseSound s) : phaseSound (getKeyStep caller p s) := by
  have hreturn (v : Byte) : phaseSound (getKeyReturn caller v s) := by cases caller <;> trivial
  simp only [phaseSound, hfg] at h
  cases p with
  | gk1 =>
    simp only [getKeyStep, getKeyPoll]
    split
    next => simp [phaseSound, hfg]
    next hsentinel =>
      split
      next => trivial
      next hshift => exact ⟨hsentinel, hshift⟩
  | gk2 =>
    simp only [getKeyStep, getKeyRelease]
    split
    · simpa [phaseSound, hfg] using h
    · exact hreturn _
  | gk3Save i =>
    simp only [getKeyStep, getKeySave]
    split
    · trivial
    · exact fun j hj => absurd hj (Fin.not_lt_zero j)
  | gk3Fill i =>
    simp only [getKeyStep, getKeyFill]
    split
    next j hj =>
      have := nextSlot_eq_some hj
      exact fun k hk => setSlot_shiftFill_of_le h (by omega)
    next hi =>
      have := nextSlot_eq_none hi
      exact fun k => setSlot_shiftFill_of_le h (by omega)
  | gk4 =>
    simp only [getKeyStep, getKeyShiftRelease]
    split
    · simpa [phaseSound, hfg] using h
    · exact h
  | gk5 =>
    simp only [getKeyStep, getKeySecond]
    split
    · simp only [phaseSound, hfg]
      exact h
    · exact ⟨h, secondaryMap_ne_sentinel _ _⟩
  | gk6 =>
    simp only [getKeyStep, getKeySecondRelease]
    split
    · simpa [phaseSound, hfg] using h
    · exact h.2
  | gk7 i =>
    simp only [getKeyStep, getKeyRestore]
    split <;> exact h
  | gk8 => exact hreturn _

/-- Every micro-step hands the next one what it relies on; an instruction begins at E0's 10, or where the loop test
found the program counter other than 0 (R182, R183). -/
theorem microStep_phaseSound {s : State} (h : phaseSound s) : phaseSound (microStep s) := by
  cases hfg : s.fg with
  | idle => simpa only [microStep, hfg] using h
  | getKey caller p => simpa only [microStep, hfg] using getKeyStep_phaseSound hfg h
  | e0 =>
    simp only [microStep, hfg]
    show Config.start ≠ 0
    decide
  | e1 | e2 | e3 | e4 | e5 => simp only [microStep, hfg]; trivial
  | e6 => simp only [microStep, hfg, firstCancelCheck]; split <;> trivial
  | e7 => simp only [microStep, hfg]; trivial
  | e8 => simp only [microStep, hfg, secondCancelCheck]; split <;> trivial
  | e9 =>
    simp only [microStep, hfg, loopTest]
    split
    next hpc =>
      show s.pc ≠ 0
      simpa [runGoesOn] using hpc
    next => trivial
  | x1 =>
    simp only [microStep, hfg, exitRelease]
    split
    · simp [phaseSound, hfg]
    · trivial

/-- Of the micro-steps only E5 stores to memory (R180). -/
theorem microStep_mem_of_ne_e5 {s : State} (h : s.fg ≠ .e5) : (microStep s).mem = s.mem := by
  cases hfg : s.fg with
  | e5 => exact absurd hfg h
  | getKey caller p => simpa only [microStep, hfg] using (getKeyStep_frame caller p s).2.1
  | idle => simp only [microStep, hfg]
  | e0 | e1 | e2 | e3 | e4 => simp only [microStep, hfg]; rfl
  | e6 => simp only [microStep, hfg, firstCancelCheck]; split <;> rfl
  | e7 => simp only [microStep, hfg, branch]; split <;> rfl
  | e8 => simp only [microStep, hfg, secondCancelCheck]; split <;> rfl
  | e9 => simp only [microStep, hfg, loopTest]; split <;> rfl
  | x1 => simp only [microStep, hfg, exitRelease]; split <;> rfl

theorem microStep_mem_wf {s : State} (h : s.mem.wf) : (microStep s).mem.wf := by
  by_cases hfg : s.fg = .e5
  · simp only [microStep, hfg, storeResult, State.goto_mem]
    exact memWrite_wf s _ _ h
  · rwa [microStep_mem_of_ne_e5 hfg]

/-! The invariant, arrival by arrival -/

/-- The foreground keeps the invariant when it keeps memory canonical and what its phase relies on. -/
theorem SoundState.of_tickStateKept {s t : State} (hs : SoundState s) (h : TickStateKept s t) (hmem : t.mem.wf)
    (hphase : phaseSound t) : SoundState t where
  memCanonical := hmem
  keyboard := h.ks ▸ hs.keyboard
  columnDriven := by rw [h.colDrive, h.ks, hs.columnDriven]
  outputs := outputsConsistent_of_tickStateKept h hs.outputs
  phase := hphase

theorem withArrivals_sound {s : State} (hs : SoundState s) (rest : List Arrival) : SoundState (s.withArrivals rest) :=
  hs.of_tickStateKept (withArrivals_tickStateKept s rest) hs.memCanonical hs.phase

theorem resetEvent_sound (mem0 : List Host.Cell) (db0 : Slots) (s : State) : SoundState (resetEvent mem0 db0 s) where
  memCanonical := Memory.wf_ofCells mem0
  keyboard := reset_keyboard_inv
  columnDriven := rfl
  outputs := .inl ⟨rfl, rfl, rfl⟩
  phase := trivial

theorem tick_sound (rows : Rows) {s : State} (hs : SoundState s) : SoundState (tick rows s) where
  memCanonical := by rw [tick_mem]; exact hs.memCanonical
  keyboard := by rw [tick_ks]; exact scan_inv rows hs.keyboard
  columnDriven := tick_columnDriven rows hs.columnDriven
  outputs := tick_outputsConsistent rows s
  phase := phaseSound_of_foregroundStateKept (tick_foregroundStateKept rows s) hs.phase

theorem microStep_sound {s : State} (hs : SoundState s) : SoundState (microStep s) :=
  hs.of_tickStateKept (microStep_frame s).1 (microStep_mem_wf hs.memCanonical) (microStep_phaseSound hs.phase)

theorem exec_subleq_sound {a b c : Byte} {s t : State} (hs : SoundState s) (h : exec (.subleq a b c) s = .next t) :
    SoundState t := by
  obtain ⟨⟨v, ht⟩, hfg⟩ := exec_subleq_eq_next h
  refine hs.of_tickStateKept (exec_tickStateKept h) ?_ ?_
  · rw [ht]
    exact memWrite_wf s _ v hs.memCanonical
  · obtain hx1 | ⟨he1, hpc⟩ := hfg
    · simp only [phaseSound, hx1]
    · simpa only [phaseSound, he1] using hpc

/-- A host command leaves the foreground idle, at GK1 or at E0: none of these relies on anything. -/
theorem exec_command_sound {i : Instr} (hi : ∀ a b c, i ≠ .subleq a b c) {s t : State} (hs : SoundState s)
    (h : exec i s = .next t) : SoundState t := by
  have hkept := exec_tickStateKept h
  obtain ⟨hidle, ⟨_, v, a, -, -, rfl⟩ | ⟨_, v, j, -, -, rfl⟩ | ⟨-, -, p, r, rfl, hp⟩⟩ := exec_eq_next hi h
  · exact hs.of_tickStateKept hkept (memWrite_wf (s.respond .nothing) a v hs.memCanonical) (by simp [phaseSound, hidle])
  · exact hs.of_tickStateKept hkept hs.memCanonical (by simp [phaseSound, hidle])
  · refine hs.of_tickStateKept hkept hs.memCanonical ?_
    obtain rfl | rfl | rfl := hp <;> trivial

theorem execDecoded_decodeCommand_sound {w : CommandWord} {s t : State} (hs : SoundState s)
    (h : execDecoded (decodeCommand w) s = .next t) : SoundState t := by
  cases hd : decodeCommand w with
  | instr i =>
    rw [hd] at h
    exact exec_command_sound (decodeCommand_ne_subleq hd) hs h
  | rejected e =>
    rw [hd] at h
    cases h

theorem proceed_sound {s t : State} (hs : SoundState s) (h : proceed s = .next t) : SoundState t := by
  rw [proceed_eq] at h
  split at h
  · exact exec_subleq_sound hs h
  · cases h
    exact microStep_sound hs

end Machine

open Machine

/-- Settles O56: the invariant is kept by a tick, a command, a reset and a move of the foreground, each by its own
lemma. -/
theorem stepKeepsInvariant : Obligations.StepKeepsInvariant := by
  intro s t hs h
  obtain ⟨-, e⟩ | ⟨rest, ⟨rows, -, e⟩ | ⟨w, -, e⟩ | ⟨m, d, -, e⟩ | ⟨-, e⟩ | ⟨-, e⟩⟩ := step_cases s <;> rw [e] at h
  · exact proceed_sound hs h
  · cases h; exact tick_sound rows (withArrivals_sound hs rest)
  · exact execDecoded_decodeCommand_sound (withArrivals_sound hs rest) h
  · cases h; exact resetEvent_sound m d _
  · cases h; exact microStep_sound (withArrivals_sound hs rest)
  · exact proceed_sound (withArrivals_sound hs rest) h

/-- Settles O32: the instruction is one memory write at b, and the latches, program counter and phase set. -/
theorem subleqFrame : Obligations.SubleqFrame := by
  intro a b c s t h
  obtain ⟨⟨v, ht⟩, -⟩ := exec_subleq_eq_next h
  have hdb : t.db = (memWrite s (operandAddress b) v).db := by rw [ht]
  have hmem : t.mem = (memWrite s (operandAddress b) v).mem := by rw [ht]
  refine ⟨exec_tickStateKept h, by rw [ht]; simp, by rw [ht]; simp, by rw [ht]; simp, by rw [ht]; simp,
    fun x hx => ?_, fun i hi => ?_⟩
  · exact (memRead_congr hmem hdb x).trans (memRead_memWrite_of_apart s v hx)
  · rw [hdb]
    exact memWrite_slot_of_notMem s v hi

/-- Settles O48: the three kinds of state an accepted command answers, `WRITE`'s, `DBSET`'s and the others'. -/
theorem hostCommandsFrame : Obligations.HostCommandsFrame := by
  intro i s t hi h
  refine ⟨exec_tickStateKept h, ?_⟩
  obtain ⟨-, ⟨addr, v, a, rfl, ha, rfl⟩ | ⟨slot, v, j, rfl, hj, rfl⟩ | ⟨hw, hd, p, r, rfl, -⟩⟩ := exec_eq_next hi h
  · refine ⟨by simp, by simp, by simp, by simp, by simp, fun hw => absurd rfl (hw addr v), ?_, nofun⟩
    rintro _ _ ⟨⟩ a' x ha' hx
    obtain rfl : a = a' := Option.some.inj (ha.symm.trans ha')
    rw [memRead_respond, memRead_memWrite_of_apart _ v hx, memRead_respond]
  · refine ⟨rfl, rfl, rfl, rfl, rfl, fun _ hd => absurd rfl (hd slot v), nofun, ?_⟩
    rintro _ _ ⟨⟩
    refine ⟨rfl, fun k hk => ?_⟩
    have hjk : j ≠ k := fun e => hk (e ▸ hj)
    exact (State.slot_setSlot (s.respond .nothing) j k v).trans (if_neg hjk)
  · exact ⟨rfl, rfl, rfl, rfl, rfl, fun _ _ => ⟨rfl, rfl, by simp⟩, fun addr v e => absurd e (hw addr v),
      fun slot v e => absurd e (hd slot v)⟩

/-- Settles O55: of the arrivals only a tick and a reset, which the statement leaves out, reach tick-owned state. -/
theorem foregroundChangesNoTickState : Obligations.ForegroundChangesNoTickState := by
  intro s t h htick hreset
  obtain ⟨-, e⟩ | ⟨rest, ⟨rows, ha, -⟩ | ⟨w, -, e⟩ | ⟨m, d, ha, -⟩ | ⟨-, e⟩ | ⟨-, e⟩⟩ := step_cases s
  · exact proceed_tickStateKept (e ▸ h)
  · exact absurd (by rw [ha]; rfl) (htick rows)
  · exact (withArrivals_tickStateKept s rest).trans (execDecoded_tickStateKept (e ▸ h))
  · exact absurd (by rw [ha]; rfl) (hreset m d)
  · cases e.symm.trans h
    exact (withArrivals_tickStateKept s rest).trans (microStep_frame _).1
  · exact (withArrivals_tickStateKept s rest).trans (proceed_tickStateKept (e ▸ h))

/-- Settles O1: the elements are the fields of `State.resetWith`; memory is the arrival's cells. -/
theorem resetEventRestoresResetValues : Obligations.ResetEventRestoresResetValues := by
  intro mem0 db0 s rest
  refine ⟨_, step_reset s rest mem0 db0, rfl, rfl, rfl, rfl, rfl, rfl, rfl, rfl, rfl, rfl, rfl, rfl, rfl, rfl, rfl,
    rfl, rfl, Memory.wf_ofCells mem0, fun x hx => ?_⟩
  exact (memRead_of_isPlain _ hx).trans (Memory.read_ofCells mem0 hx)

/-- Settles O2: the reset state is what a reset arrival with no cells and a zero display leaves. -/
theorem resetMeetsInvariant : Obligations.ResetMeetsInvariant :=
  resetEvent_sound [] (Vector.replicate 6 0) State.reset

/-- Settles O13: a tick writes its own state from its own state and the current digit's slot. -/
theorem tickReadsOneSlotOnly : Obligations.TickReadsOneSlotOnly := by
  intro s s' rows h hslot
  have hslot' : s'.slot s.currentDigit = s.slot s.currentDigit := hslot
  constructor <;> simp [h.ks, h.currentDigit, h.colDrive, columnAfter, hslot']

/-- Settles O26: the table below 12, at 12 to 15, and the draw above. -/
theorem secondaryMapNeverGivesSentinel : Obligations.SecondaryMapNeverGivesSentinel := by
  intro d n
  refine ⟨secondaryMap_ne_sentinel d n, fun h => secondaryMap_of_lt_twelve h n, fun h h' => ?_,
    fun h => secondaryMap_of_ge h n⟩
  rw [secondaryMap_of_lt_sixteen h h' n]
  exact ⟨rfl, secondaryCode_mem _⟩

/-- Settles O54: a tick writes tick-owned state only, and its arrival is the only one consumed. -/
theorem tickChangesNoForegroundState : Obligations.TickChangesNoForegroundState := by
  intro s rows rest
  refine ⟨_, step_tick s rest rows, ?_, tick_arrivals rows _⟩
  rw [tick_withArrivals]
  obtain ⟨hdb, hmem, hpc, hlatch, hfg, hgk, hresponse, hdraws⟩ := tick_foregroundStateKept rows s
  exact ⟨hdb, hmem, hpc, hlatch, hfg, hgk, hresponse, hdraws⟩

end Sys2Proof
end

section
/-! Proofs, family `20_memory.md`: the display window, read after write, the two memory commands, and ticks between
micro-steps (R61 to R71, R80, R82, R83, R201, R202). -/

namespace Sys2Proof

namespace Machine

/-! Reads and writes at each kind of address (R61 to R69) -/

theorem memRead_of_plain (s : State) {a : Address} (h : a.val = 0 ∨ 10 ≤ a.val) :
    memRead s a = s.mem.read a.val := by
  simp only [memRead, backing_plain h]

theorem memRead_of_slot (s : State) {a : Address} {i : Fin 6} (h : a.val = i.val + 1) :
    memRead s a = lowNibble (s.slot i) := by
  simp only [memRead, backing_slot h]

theorem memRead_of_pair (s : State) {a : Address} {j : Fin 3} (h : a.val = 7 + j.val) :
    memRead s a = packNibbles (s.slot ⟨2 * j.val + 1, by omega⟩) (s.slot ⟨2 * j.val, by omega⟩) := by
  simp only [memRead, backing_pair h]

theorem memWrite_of_plain (s : State) {a : Address} (h : a.val = 0 ∨ 10 ≤ a.val) (v : Byte) :
    memWrite s a v = s.setMem a.val v := by
  simp only [memWrite, backing_plain h]

theorem memWrite_of_slot (s : State) {a : Address} {i : Fin 6} (h : a.val = i.val + 1) (v : Byte) :
    memWrite s a v = s.setSlot i v := by
  simp only [memWrite, backing_slot h]

theorem memWrite_of_pair (s : State) {a : Address} {j : Fin 3} (h : a.val = 7 + j.val) (v : Byte) :
    memWrite s a v =
      (s.setSlot ⟨2 * j.val, by omega⟩ (lowNibble v)).setSlot ⟨2 * j.val + 1, by omega⟩ (highNibble v) := by
  simp only [memWrite, backing_pair h]

/-- The slots after a write at 7 + j: the two nibbles, and the others as they were (R67). -/
theorem slot_memWrite_of_pair (s : State) {a : Address} {j : Fin 3} (h : a.val = 7 + j.val) (v : Byte) (k : Fin 6) :
    (memWrite s a v).slot k =
      if k.val = 2 * j.val + 1 then highNibble v else if k.val = 2 * j.val then lowNibble v else s.slot k := by
  simp only [memWrite_of_pair s h, State.slot_setSlot, Fin.ext_iff, eq_comm (b := k.val)]

/-- An address is in one of the three parts of the map (R61). -/
theorem address_cases (a : Address) :
    (a.val = 0 ∨ 10 ≤ a.val) ∨ (∃ i : Fin 6, a.val = i.val + 1) ∨ ∃ j : Fin 3, a.val = 7 + j.val := by
  obtain ⟨-, h⟩ | ⟨i, -, h⟩ | ⟨j, -, -, -, h, -⟩ := backing_cases a
  · simp only [isPlain, decide_eq_true_eq] at h
    exact .inl h.2
  · exact .inr (.inl ⟨i, h⟩)
  · exact .inr (.inr ⟨j, h⟩)

theorem lowNibble_toNat_le (v : Byte) : (lowNibble v).toNat ≤ 15 := by
  rw [lowNibble_toNat]; omega

theorem highNibble_toNat_le (v : Byte) : (highNibble v).toNat ≤ 15 := by
  have := v.isLt
  rw [highNibble_toNat]; omega

/-- Shifting a byte right by four leaves no bit for the mask to clear. -/
theorem highNibble_eq_shift (v : Byte) : highNibble v = v >>> 4 :=
  BitVec.eq_of_toNat_eq (by simp [highNibble_toNat, Nat.shiftRight_eq_div_pow])

/-- What a read gives right after a write: at a slot the high nibble is lost to it (R71 (i) to (iii)). -/
theorem memRead_memWrite_self (s : State) (a : Address) (v : Byte) :
    memRead (memWrite s a v) a = if 1 ≤ a.val ∧ a.val ≤ 6 then lowNibble v else v := by
  obtain h | ⟨i, h⟩ | ⟨j, h⟩ := address_cases a
  · rw [if_neg (by omega), memRead_of_plain _ h, memWrite_of_plain s h, State.setMem_mem, Memory.read_write,
      if_pos rfl]
  · rw [if_pos (by omega), memRead_of_slot _ h, memWrite_of_slot s h, State.slot_setSlot, if_pos rfl]
  · rw [if_neg (by omega), memRead_of_pair _ h, slot_memWrite_of_pair s h, slot_memWrite_of_pair s h]
    simp

/-- Zero reads back as zero at every address. -/
theorem memRead_memWrite_zero (s : State) (a : Address) : memRead (memWrite s a 0) a = 0 := by
  rw [memRead_memWrite_self]
  split <;> rfl

theorem slotsOf_plain {a : Address} (h : a.val = 0 ∨ 10 ≤ a.val) : slotsOf a = [] := by
  simp only [slotsOf, backing_plain h]

/-- An address of plain storage shares no state element with any other. -/
theorem apart_of_plain {a x : Address} (h : a.val = 0 ∨ 10 ≤ a.val) (hx : x ≠ a) : Apart x a :=
  ⟨hx, by simp [slotsOf_plain h]⟩

/-! What a slot renders as (R122) -/

theorem glyph_of_index {v : Byte} {g : Fin 20} (h : v.toNat = g.val) : glyph v = .pattern (Config.seg g) := by
  rw [glyph, dif_pos (by have := g.isLt; simp only [Config.blankAbove]; omega)]
  exact congrArg (fun i => SegOut.pattern (Config.seg i)) (Fin.ext h)

theorem glyph_of_gt {v : Byte} (h : 19 < v.toNat) : glyph v = .blank := by
  rw [glyph, dif_neg (by simp only [Config.blankAbove]; omega)]

/-- A nibble renders as a hex digit. -/
theorem glyph_of_nibble {v : Byte} (h : v.toNat ≤ 15) :
    ∃ g : Fin 16, glyph v = .pattern (Config.seg (g.castLE (by decide))) :=
  ⟨⟨v.toNat, by omega⟩, glyph_of_index rfl⟩

/-! The memory commands and the fetch (R80, R201, R202) -/

/-- A memory write does not look at the port's result. -/
theorem memWrite_respond (s : State) (r : Response) (a : Address) (v : Byte) :
    memWrite (s.respond r) a v = (memWrite s a v).respond r := by
  unfold memWrite
  split <;> rfl

/-- Where an instruction begins, the foreground executes what was fetched (R80). -/
theorem proceed_of_decode {s : State} {i : Instr} (hfg : s.fg = .e1) (h : decode (fetchBytes s) = .instr i) :
    proceed s = exec i s := by
  simp only [proceed, hfg, if_true, h, execDecoded]

/-- The byte the instruction stores, in the two spellings of the spec: over the integers and modulo 256 (R188). -/
theorem subleqValue_eq_difference (a b : Byte) (s : State) :
    subleqValue a b s = difference (memRead s (operandAddress b)) (memRead s (operandAddress a)) := by
  rw [subleqValue, Int.sub_eq_add_neg, BitVec.ofInt_add, BitVec.ofInt_neg]
  simp [difference, BitVec.sub_eq_add_neg]

/-! What a micro-step reads of the tick's state: the Keyboard State, and that only at some phases (R83) -/

theorem ForegroundStateKept.refl (s : State) : ForegroundStateKept s s := ⟨rfl, rfl, rfl, rfl, rfl, rfl, rfl, rfl⟩

theorem ForegroundStateKept.symm {s t : State} (h : ForegroundStateKept s t) : ForegroundStateKept t s :=
  ⟨h.db.symm, h.mem.symm, h.pc.symm, h.latch.symm, h.fg.symm, h.gk.symm, h.response.symm, h.draws.symm⟩

theorem ForegroundStateKept.trans {s t u : State} (h : ForegroundStateKept s t) (h' : ForegroundStateKept t u) :
    ForegroundStateKept s u :=
  ⟨h'.db.trans h.db, h'.mem.trans h.mem, h'.pc.trans h.pc, h'.latch.trans h.latch, h'.fg.trans h.fg,
    h'.gk.trans h.gk, h'.response.trans h.response, h'.draws.trans h.draws⟩

theorem TickStateKept.symm {s t : State} (h : TickStateKept s t) : TickStateKept t s :=
  ⟨h.ks.symm, h.currentDigit.symm, h.digitSel.symm, h.segOut.symm, h.colDrive.symm⟩

/-- The two contexts and the arrivals are the whole state (R47). -/
theorem State.eq_of_kept {s t : State} (h : ForegroundStateKept s t) (h' : TickStateKept s t)
    (ha : t.arrivals = s.arrivals) : t = s := by
  obtain ⟨hdb, hmem, hpc, hlatch, hfg, hgk, hresponse, hdraws⟩ := h
  obtain ⟨hks, hdigit, hsel, hseg, hcol⟩ := h'
  cases s
  cases t
  simp_all

/-- The foreground's state of `s` with everything else as in `u`. -/
def State.withTickState (s u : State) : State :=
  { s with
    ks := u.ks, currentDigit := u.currentDigit, digitSel := u.digitSel, segOut := u.segOut, colDrive := u.colDrive
    arrivals := u.arrivals }

theorem withTickState_foregroundStateKept (s u : State) : ForegroundStateKept s (s.withTickState u) :=
  ⟨rfl, rfl, rfl, rfl, rfl, rfl, rfl, rfl⟩

theorem ForegroundStateKept.eq_withTickState {s t : State} (h : ForegroundStateKept s t) : t = s.withTickState t :=
  State.eq_of_kept ((withTickState_foregroundStateKept s t).symm.trans h) ⟨rfl, rfl, rfl, rfl, rfl⟩ rfl

theorem memWrite_withTickState (s u : State) (a : Address) (v : Byte) :
    memWrite (s.withTickState u) a v = (memWrite s a v).withTickState u := by
  unfold memWrite
  split <;> rfl

/-- A micro-step at a phase that reads no Keyboard State neither reads nor changes what the tick owns. -/
theorem microStep_withTickState {s : State} (h : s.fg.readsKeyboard = false) (u : State) :
    microStep (s.withTickState u) = (microStep s).withTickState u := by
  have hfg : (s.withTickState u).fg = s.fg := rfl
  unfold microStep
  rw [hfg]
  cases hp : s.fg with
  | idle | e0 | e1 | e2 | e3 | e4 => rfl
  | e5 => exact congrArg (State.goto · .e6) (memWrite_withTickState s u _ _)
  | e7 =>
    have hlatch : (s.withTickState u).latch = s.latch := rfl
    simp only [branch, hlatch]
    split <;> rfl
  | e9 =>
    have hpc : (s.withTickState u).pc = s.pc := rfl
    simp only [loopTest, hpc]
    split <;> rfl
  | e6 | e8 | x1 => simp [hp, Phase.readsKeyboard] at h
  | getKey caller p =>
    cases p with
    | gk1 | gk2 | gk4 | gk5 | gk6 => simp [hp, Phase.readsKeyboard] at h
    | gk3Save i => simp only [getKeyStep, getKeySave]; split <;> rfl
    | gk3Fill i => simp only [getKeyStep, getKeyFill]; split <;> rfl
    | gk7 i => simp only [getKeyStep, getKeyRestore]; split <;> rfl
    | gk8 => cases caller <;> rfl

theorem microStep_foregroundStateKept {s t : State} (h : ForegroundStateKept s t)
    (hks : s.fg.readsKeyboard = false) : ForegroundStateKept (microStep s) (microStep t) := by
  rw [h.eq_withTickState, microStep_withTickState hks]
  exact withTickState_foregroundStateKept _ _

/-! Ticks between micro-steps (R82) -/

/-- Any number of ticks. -/
def ticks (rows : List Rows) (s : State) : State := rows.foldl (fun s r => tick r s) s

/-- One micro-step with any number of ticks before it. -/
def disturbedStep (rows : List Rows) (s : State) : State := microStep (ticks rows s)

theorem ticks_foregroundStateKept (rows : List Rows) (s : State) : ForegroundStateKept s (ticks rows s) := by
  induction rows generalizing s with
  | nil => exact .refl s
  | cons r rows ih => exact (tick_foregroundStateKept r s).trans (ih (tick r s))

/-- A run over tick arrivals. -/
theorem runs_ticks (rows : List Rows) (s : State) (rest : List Arrival) :
    runs rows.length (s.withArrivals (rows.map .tick ++ rest)) = .next ((ticks rows s).withArrivals rest) := by
  induction rows generalizing s with
  | nil => rfl
  | cons r rows ih =>
    refine (runs_of_next (step_tick s _ r) _).trans ?_
    rw [tick_withArrivals]
    exact ih (tick r s)

/-- A run over ticks and one micro-step. -/
theorem runs_disturbedStep (rows : List Rows) (s : State) (rest : List Arrival) :
    runs (rows.length + 1) (s.withArrivals (rows.map .tick ++ .micro :: rest)) =
      .next ((disturbedStep rows s).withArrivals rest) := by
  rw [runs_add (runs_ticks rows s (.micro :: rest)), runs_of_next (step_micro _ _), runs_zero, microStep_withArrivals]
  rfl

/-- A run over micro-steps with ticks before each. -/
theorem runs_interleaved (gaps : List (List Rows)) (s : State) (rest : List Arrival) :
    runs (interleaved gaps).length (s.withArrivals (interleaved gaps ++ rest)) =
      .next ((gaps.foldl (fun s rows => disturbedStep rows s) s).withArrivals rest) := by
  induction gaps generalizing s with
  | nil => rfl
  | cons rows gaps ih =>
    have harrivals : interleaved (rows :: gaps) ++ rest = rows.map .tick ++ .micro :: (interleaved gaps ++ rest) := by
      simp [interleaved]
    have hlength : (interleaved (rows :: gaps)).length = rows.length + 1 + (interleaved gaps).length := by
      simp only [interleaved, List.flatMap_cons, List.length_append, List.length_map, List.length_singleton]
    rw [harrivals, hlength, runs_add (runs_disturbedStep rows s _), ih]
    rfl

/-- Ticks before a micro-step that reads no Keyboard State do not reach the foreground. -/
theorem disturbedStep_foregroundStateKept {s t : State} (h : ForegroundStateKept s t)
    (hks : s.fg.readsKeyboard = false) (rows : List Rows) :
    ForegroundStateKept (microStep s) (disturbedStep rows t) :=
  microStep_foregroundStateKept (h.trans (ticks_foregroundStateKept rows t)) hks

/-! E1 to E5: the instruction up to its store (R180) -/

/-- The instruction has stored and awaits the first cancel check. -/
def subleqStored (a b c : Byte) (s : State) : State :=
  { memWrite s (operandAddress b) (subleqValue a b s) with
    latch := { a := a, b := b, c := c, result := subleqValue a b s }, pc := s.pc + 3, fg := .e6 }

theorem fetched_eq_operandsFetched {s : State} {a b c : Byte} (h : fetchBytes s = [a, b, c]) :
    fetchC (fetchB (fetchA s)) = operandsFetched a b c s := by
  simp only [fetchBytes, List.cons.injEq, and_true] at h
  obtain ⟨rfl, rfl, rfl⟩ := h
  rfl

theorem nextPc_three (pc : Byte) : nextPc (nextPc (nextPc pc)) = pc + 3 := by
  simp only [nextPc, BitVec.add_assoc]
  rfl

/-- A memory write does not look at the latches, the program counter or the phase. -/
theorem memWrite_with_latch_pc_fg (s : State) (l : OperandLatches) (pc : Byte) (p : Phase) (a : Address) (v : Byte) :
    memWrite { s with latch := l, pc := pc, fg := p } a v =
      { memWrite s a v with latch := l, pc := pc, fg := p } := by
  unfold memWrite
  split <;> rfl

theorem storeResult_subtract_operandsFetched (a b c : Byte) (s : State) :
    storeResult (subtract (operandsFetched a b c s)) = subleqStored a b c s := by
  have hsubtract : subtract (operandsFetched a b c s) =
      { s with latch := { a := a, b := b, c := c, result := subleqValue a b s }, pc := s.pc + 3, fg := .e5 } := by
    rw [subleqValue_eq_difference, ← nextPc_three]
    rfl
  rw [hsubtract, storeResult, memWrite_with_latch_pc_fg]
  rfl

/-- Five micro-steps of an instruction, ticks before each, leave the foreground where the store alone does. -/
theorem disturbedSteps_store {s : State} {a b c : Byte} (hfg : s.fg = .e1) (h : fetchBytes s = [a, b, c])
    (g₁ g₂ g₃ g₄ g₅ : List Rows) :
    ForegroundStateKept (subleqStored a b c s)
      (disturbedStep g₅ (disturbedStep g₄ (disturbedStep g₃ (disturbedStep g₂ (disturbedStep g₁ s))))) := by
  have he1 : microStep s = fetchA s := by simp only [microStep, hfg]
  have h₁ := disturbedStep_foregroundStateKept (.refl s) (by rw [hfg]; rfl) g₁
  rw [he1] at h₁
  have h₂ : ForegroundStateKept (fetchB (fetchA s)) _ := disturbedStep_foregroundStateKept h₁ rfl g₂
  have h₃ : ForegroundStateKept (fetchC _) _ := disturbedStep_foregroundStateKept h₂ rfl g₃
  have h₄ : ForegroundStateKept (subtract _) _ := disturbedStep_foregroundStateKept h₃ rfl g₄
  have h₅ : ForegroundStateKept (storeResult _) _ := disturbedStep_foregroundStateKept h₄ rfl g₅
  rwa [fetched_eq_operandsFetched h, storeResult_subtract_operandsFetched] at h₅

/-! E6 to E8: the cancel checks and the branch, or the way out of the run (R184, R186) -/

/-- The phases whose micro-step may write memory or a display slot. -/
def Phase.stores : Phase → Bool
  | .e5 => true
  | .getKey _ (.gk3Fill _) => true
  | .getKey _ (.gk7 _) => true
  | _ => false

theorem microStep_db_of_not_stores {s : State} (h : s.fg.stores = false) : (microStep s).db = s.db := by
  unfold microStep
  cases hp : s.fg with
  | idle | e0 | e1 | e2 | e3 | e4 => rfl
  | e5 => simp [hp, Phase.stores] at h
  | e6 => simp only [firstCancelCheck]; split <;> rfl
  | e7 => simp only [branch]; split <;> rfl
  | e8 => simp only [secondCancelCheck]; split <;> rfl
  | e9 => simp only [loopTest]; split <;> rfl
  | x1 => simp only [exitRelease]; split <;> rfl
  | getKey caller p =>
    cases p with
    | gk3Fill i | gk7 i => simp [hp, Phase.stores] at h
    | gk1 => simp only [getKeyStep, getKeyPoll]; split <;> [rfl; split <;> rfl]
    | gk2 => simp only [getKeyStep, getKeyRelease]; split <;> [rfl; cases caller <;> rfl]
    | gk3Save i => simp only [getKeyStep, getKeySave]; split <;> rfl
    | gk4 => simp only [getKeyStep, getKeyShiftRelease]; split <;> rfl
    | gk5 => simp only [getKeyStep, getKeySecond]; split <;> rfl
    | gk6 => simp only [getKeyStep, getKeySecondRelease]; split <;> rfl
    | gk8 => cases caller <;> rfl

theorem microStep_mem_of_not_stores {s : State} (h : s.fg.stores = false) : (microStep s).mem = s.mem :=
  microStep_mem_of_ne_e5 (by rintro e; simp [e, Phase.stores] at h)

/-- Memory and display as in `u`, and either the instruction goes on, at phase `go` and program counter `pc` with the
latches of `u`, or a cancel check has fired and the run is at one of the phases on its way out. -/
structure GoesOnOrLeaves (u : State) (go : Phase) (pc : Byte) (exits : List Phase) (t : State) : Prop where
  mem : t.mem = u.mem
  db : t.db = u.db
  phase : (t.fg = go ∧ t.pc = pc ∧ t.latch = u.latch) ∨ t.fg ∈ exits

section
variable {u t : State} {go go' : Phase} {pc pc' : Byte} {exits exits' : List Phase}

/-- Ticks change none of it. -/
theorem GoesOnOrLeaves.of_ticks (h : GoesOnOrLeaves u go pc exits t) (rows : List Rows) :
    GoesOnOrLeaves u go pc exits (ticks rows t) := by
  have hk := ticks_foregroundStateKept rows t
  exact ⟨hk.mem.trans h.mem, hk.db.trans h.db, by rw [hk.fg, hk.pc, hk.latch]; exact h.phase⟩

/-- A micro-step at phases that store nothing leaves memory and display; what is left to show is where it leads. -/
theorem GoesOnOrLeaves.of_microStep (h : GoesOnOrLeaves u go pc exits t)
    (hstores : ∀ p ∈ go :: exits, p.stores = false)
    (hphase : ((microStep t).fg = go' ∧ (microStep t).pc = pc' ∧ (microStep t).latch = u.latch) ∨
      (microStep t).fg ∈ exits') : GoesOnOrLeaves u go' pc' exits' (microStep t) := by
  have ht : t.fg.stores = false := by
    obtain ⟨hfg, -, -⟩ | hfg := h.phase
    · exact hfg ▸ hstores go (by simp)
    · exact hstores _ (by simp [hfg])
  exact ⟨(microStep_mem_of_not_stores ht).trans h.mem, (microStep_db_of_not_stores ht).trans h.db, hphase⟩

theorem microStep_of_x1_fg (h : t.fg = .x1) : (microStep t).fg ∈ [Phase.x1, .getKey .run .gk1] := by
  simp only [microStep, h, exitRelease]
  split
  · simp [h]
  · simp

theorem microStep_of_gk1_fg {caller : Caller} (h : t.fg = .getKey caller .gk1) :
    (microStep t).fg ∈ [Phase.getKey caller .gk1, .getKey caller .gk2, .getKey caller (.gk3Save 0)] := by
  simp only [microStep, h, getKeyStep, getKeyPoll]
  split
  · simp
  · split <;> simp

theorem GoesOnOrLeaves.firstCancelCheck (h : GoesOnOrLeaves u .e6 pc [] t) (rows : List Rows) :
    GoesOnOrLeaves u .e7 pc [.x1] (disturbedStep rows t) := by
  refine (h.of_ticks rows).of_microStep (by decide) ?_
  obtain ⟨hfg, hpc, hlatch⟩ | hfg := (h.of_ticks rows).phase
  · simp only [microStep, hfg, Machine.firstCancelCheck]
    split <;> simp [hpc, hlatch]
  · simp at hfg

theorem GoesOnOrLeaves.branch (h : GoesOnOrLeaves u .e7 pc [.x1] t) (rows : List Rows) :
    GoesOnOrLeaves u .e8 (if branchTaken u.latch.result then u.latch.c else pc) [.x1, .getKey .run .gk1]
      (disturbedStep rows t) := by
  refine (h.of_ticks rows).of_microStep (by decide) ?_
  obtain ⟨hfg, hpc, hlatch⟩ | hfg := (h.of_ticks rows).phase
  · simp only [microStep, hfg, Machine.branch, hlatch]
    split <;> simp [hpc, hlatch]
  · exact .inr (microStep_of_x1_fg (List.mem_singleton.1 hfg))

theorem GoesOnOrLeaves.secondCancelCheck (h : GoesOnOrLeaves u .e8 pc [.x1, .getKey .run .gk1] t) (rows : List Rows) :
    GoesOnOrLeaves u .e9 pc [.x1, .getKey .run .gk1, .getKey .run .gk2, .getKey .run (.gk3Save 0)]
      (disturbedStep rows t) := by
  refine (h.of_ticks rows).of_microStep (by decide) ?_
  obtain ⟨hfg, hpc, hlatch⟩ | hfg := (h.of_ticks rows).phase
  · simp only [microStep, hfg, Machine.secondCancelCheck]
    split <;> simp [hpc, hlatch]
  · simp only [List.mem_cons, List.not_mem_nil, or_false] at hfg
    refine .inr ?_
    obtain hfg | hfg := hfg
    · have := microStep_of_x1_fg hfg
      simp only [List.mem_cons] at this ⊢
      tauto
    · exact List.mem_cons_of_mem _ (microStep_of_gk1_fg hfg)

end

end Machine

open Machine

/-- Settles O3: the byte at 1..6 is one nibble of its slot. -/
theorem windowSlotReadIsLowNibble : Obligations.WindowSlotReadIsLowNibble := by
  intro s i a ha
  refine ⟨memRead_of_slot s ha, ?_, memRead_memWrite_self s 1 0xA5⟩
  rw [memRead_of_slot s ha]
  exact lowNibble_toNat_le _

/-- Settles O4: the pack of two nibbles, as a number. -/
theorem pairReadJoinsLowNibbles : Obligations.PairReadJoinsLowNibbles := by
  intro s j a ha
  rw [memRead_of_pair s ha, packNibbles_toNat]
  rfl

/-- Settles O5: a write at 1..6 is `setSlot`. -/
theorem slotWriteStoresWholeByte : Obligations.SlotWriteStoresWholeByte := by
  intro s i a v ha
  have hslot (j : Fin 6) : (memWrite s a v).db[j] = if i = j then v else s.db[j] := by
    rw [memWrite_of_slot s ha]
    exact State.slot_setSlot s i j v
  have hself : (memWrite s a v).db[i] = v := by rw [hslot, if_pos rfl]
  have hA5 : (memWrite s 1 0xA5).db[0] = 0xA5 := by
    rw [memWrite_of_slot s (i := 0) rfl]
    exact State.slot_setSlot s 0 0 0xA5
  refine ⟨hself, fun j hj => by rw [hslot, if_neg (Ne.symm hj)], ?_, ?_, ?_, ?_, hA5,
    memRead_memWrite_self s 1 0xA5, ?_⟩
  · rw [memWrite_of_slot s ha]
    rfl
  · rw [memRead_memWrite_self, if_pos (by omega)]
    rfl
  · rw [hself]
    exact fun g => glyph_of_index
  · rw [hself]
    exact glyph_of_gt
  · rw [hA5]
    exact glyph_of_gt (by decide)

/-- Settles O6: both slots get a nibble, which is a hex digit. -/
theorem pairWriteSplitsByte : Obligations.PairWriteSplitsByte := by
  intro s j a v ha
  have heven : (memWrite s a v).db[2 * j.val] = lowNibble v :=
    (slot_memWrite_of_pair s ha v ⟨2 * j.val, by omega⟩).trans (by simp)
  have hodd : (memWrite s a v).db[2 * j.val + 1] = highNibble v :=
    (slot_memWrite_of_pair s ha v ⟨2 * j.val + 1, by omega⟩).trans (by simp)
  refine ⟨?_, ?_, fun k hk hk' => ?_, ?_, ?_, ?_, ?_, ?_⟩
  · rw [heven, lowNibble_toNat]
  · rw [hodd, highNibble_toNat]
  · exact (slot_memWrite_of_pair s ha v k).trans (by rw [if_neg hk', if_neg hk]; rfl)
  · rw [memWrite_of_pair s ha]
    rfl
  · rw [heven]
    exact glyph_of_nibble (lowNibble_toNat_le v)
  · rw [hodd]
    exact glyph_of_nibble (highNibble_toNat_le v)
  · exact slot_memWrite_of_pair s (a := 7) (j := 0) rfl 0x34 0
  · exact slot_memWrite_of_pair s (a := 7) (j := 0) rfl 0x34 1

/-- Settles O7: an address of plain storage is apart from every other. -/
theorem storageWriteStoresRawByte : Obligations.StorageWriteStoresRawByte := by
  intro s a v ha
  refine ⟨memRead_of_plain s ha, ?_, fun x hx => memRead_memWrite_of_apart s v (apart_of_plain ha hx), ?_⟩
  · rw [memRead_memWrite_self, if_neg (by omega)]
  · rw [memWrite_of_plain s ha]
    rfl

/-- Settles O8: the aliases of pair j are the addresses of its two slots, 2j and 2j + 1. -/
theorem readAfterWriteLaws : Obligations.ReadAfterWriteLaws := by
  intro s a v w
  refine ⟨memRead_memWrite_self s a v, fun j p e o hp he ho => ?_⟩
  have heven : e.val = (⟨2 * j.val, by omega⟩ : Fin 6).val + 1 := by simp only; omega
  have hodd : o.val = (⟨2 * j.val + 1, by omega⟩ : Fin 6).val + 1 := by simp only; omega
  refine ⟨?_, ?_, ?_⟩
  · rw [memRead_of_slot _ heven, slot_memWrite_of_pair s hp, if_neg (by simp), if_pos rfl, lowNibble_lowNibble]
    rfl
  · rw [memRead_of_slot _ hodd, slot_memWrite_of_pair s hp, if_pos rfl, lowNibble_highNibble, highNibble_eq_shift]
  · rw [memRead_of_pair _ hp, memWrite_of_slot _ hodd, memWrite_of_slot _ heven]
    simp [State.slot_setSlot, packNibbles, lowNibble]

/-- Settles O9: the frame rule of a memory write, at the slots and at plain storage. -/
theorem writeLeavesApartAddresses : Obligations.WriteLeavesApartAddresses :=
  fun s _ _ v h => memRead_memWrite_of_apart s v h

/-- Settles O45: the address resolves to itself below 1024 and to nothing above. -/
theorem readAnswersByteOrReportsOutOfRange : Obligations.ReadAnswersByteOrReportsOutOfRange := by
  intro s addr hidle
  have hread (addr : HostAddr) (a : Address) (ha : addr.toNat = a.val) :
      exec (.read addr) s = .next { s with response := .datum (memRead s a) } := by
    simp only [exec, execRead, accept_idle hidle, resolveAddress_of_lt ha, memRead_respond]
    rfl
  refine ⟨hread addr, fun h => ?_, fun h => ?_⟩
  · simp only [exec, execRead, accept_idle hidle, resolveAddress_of_ge h, reportOutOfRange]
  · have hslot : s.slot 0 = 0xA5 := h
    rw [hread 1 1 rfl, memRead_of_slot s (i := 0) rfl, hslot]
    rfl

/-- Settles O46: the address resolves to itself below 1024 and to nothing above. -/
theorem writeStoresByteOrReportsOutOfRange : Obligations.WriteStoresByteOrReportsOutOfRange := by
  intro s addr data hidle
  have hwrite (addr : HostAddr) (data : Byte) (a : Address) (ha : addr.toNat = a.val) :
      exec (.write addr data) s = .next { memWrite s a data with response := .done } := by
    simp only [exec, execWrite, accept_idle hidle, resolveAddress_of_lt ha, memWrite_respond]
    rfl
  refine ⟨hwrite addr data, fun h => ?_, _, hwrite 7 0x34 7 rfl, ?_, ?_⟩
  · simp only [exec, execWrite, accept_idle hidle, resolveAddress_of_ge h, reportOutOfRange]
  · exact slot_memWrite_of_pair s (a := 7) (j := 0) rfl 0x34 0
  · exact slot_memWrite_of_pair s (a := 7) (j := 0) rfl 0x34 1

/-- Settles O52: neither the fetch nor the decoder looks at the arrivals. -/
theorem stepRunsDecodedInstruction : Obligations.StepRunsDecodedInstruction := by
  intro s i rest hfg hd
  have hproceed (x : List Arrival) : proceed (s.withArrivals x) = exec i (s.withArrivals x) :=
    proceed_of_decode hfg hd
  exact ⟨hproceed [], hproceed rest⟩

/-- Settles O35: the branch takes the latched target, and the zero stored over the third byte reads back as zero. -/
theorem selfModificationUsesFetchedTarget : Obligations.SelfModificationUsesFetchedTarget := by
  intro s a b c hfg harrivals hkey hbytes hb hvalue
  have hdiff : difference (memRead s (operandAddress b)) (memRead s (operandAddress a)) = 0 :=
    (subleqValue_eq_difference a b s).symm.trans hvalue
  have hcancel : cancelObserved s = false := by rw [cancelObserved, hkey, isCancel_sentinel]
  have hstep : step s = exec (.subleq a b c) s := by
    simp only [step, harrivals]
    exact proceed_of_decode hfg (by rw [hbytes]; rfl)
  refine ⟨_, hstep.trans (execSubleq_eq a b c s), by simp [hdiff, hcancel, branchTaken], ?_⟩
  rw [← hb]
  refine (memRead_congr rfl rfl _).trans (?_ : memRead (memWrite s _ _) _ = 0)
  rw [hdiff]
  exact memRead_memWrite_zero s _

/-- Settles O39: the two orders agree on the foreground's state, since the micro-step reads none of the tick's, and on
the tick's state, since the tick reads no more of the foreground's than the current digit's slot (O13). -/
theorem tickAndMicroStepCommute : Obligations.TickAndMicroStepCommute := by
  intro s rows hks hslot
  have hforeground : ForegroundStateKept (tick rows (microStep s)) (microStep (tick rows s)) :=
    (tick_foregroundStateKept rows (microStep s)).symm.trans
      (microStep_foregroundStateKept (tick_foregroundStateKept rows s) hks)
  obtain ⟨hmicro, harrivals⟩ := microStep_frame s
  obtain ⟨hmicro', harrivals'⟩ := microStep_frame (tick rows s)
  have htick := tickReadsOneSlotOnly s (microStep s) rows hmicro hslot
  exact State.eq_of_kept hforeground (htick.symm.trans hmicro') (by simp [harrivals, harrivals'])

/-- Settles O38: up to the store the phases read no Keyboard State, and after it they write neither memory nor display,
even where a cancel check has fired. -/
theorem ticksCannotDisturbInstruction : Obligations.TicksCannotDisturbInstruction := by
  intro s a b c gaps rest hlength hfg hbytes
  match gaps, hlength with
  | [g₁, g₂, g₃, g₄, g₅, g₆, g₇, g₈], _ =>
    have hstored := disturbedSteps_store hfg hbytes g₁ g₂ g₃ g₄ g₅
    have h₅ : GoesOnOrLeaves (subleqStored a b c s) .e6 (s.pc + 3) [] _ :=
      ⟨hstored.mem, hstored.db, .inl ⟨hstored.fg, hstored.pc, hstored.latch⟩⟩
    have h₈ := ((h₅.firstCancelCheck g₆).branch g₇).secondCancelCheck g₈
    refine ⟨_, runs_interleaved _ s rest, h₈.mem, h₈.db, rfl, fun he9 => ?_⟩
    obtain ⟨-, hpc, hlatch⟩ | hexit := h₈.phase
    · refine ⟨hpc.trans ?_, hlatch⟩
      simp [subleqStored, branchTaken]
    · exact absurd (he9 ▸ hexit) (by decide)

end Sys2Proof
end

section
/-! Proofs, family `30_encoding.md`: decode and encode agree, the decoder accepts well-formed instructions only, `DBSET`
stores one slot, and the port executes what it decodes (R100, R101, R104, R107, R108, R200, R205). -/

namespace Sys2Proof

/-! What the decoder accepts (R104, R107, R108) -/

/-- Inversion of the decoder: three bytes give a `SUBLEQ`, and only the bytes of a command word give anything else. -/
theorem decode_eq_instr {bytes : List Byte} {i : Instr} (h : decode bytes = .instr i) :
    (∃ a b c, bytes = [a, b, c] ∧ i = .subleq a b c) ∨ ∃ w, decodeCommand w = .instr i := by
  unfold decode at h
  split at h
  next a b c => cases h; exact .inl ⟨a, b, c, rfl, rfl⟩
  next =>
    split at h
    · exact .inr ⟨_, h⟩
    · cases h
  next => cases h

/-- The one operand the well-formedness looks at is the slot, and the decoder has compared it (R108). -/
theorem wellFormed_of_decodeCommand {w : CommandWord} {i : Instr} (h : decodeCommand w = .instr i) :
    i.wellFormed = true := by
  obtain ⟨-, rfl⟩ | ⟨-, rfl⟩ | ⟨-, rfl⟩ | ⟨-, rfl⟩ | ⟨-, hslot, rfl⟩ | ⟨-, rfl⟩ := decodeCommand_eq_instr h
  case inr.inr.inr.inr.inl => exact hslot
  all_goals rfl

namespace Machine

/-! The slot a `DBSET` names (R107, R205) -/

theorem slotIndex_of_lt {slot : BitVec 3} {i : Fin 6} (h : slot.toNat = i.val) : slotIndex slot = some i := by
  rw [slotIndex, dif_pos (h ▸ i.isLt)]
  exact congrArg some (Fin.ext h)

theorem slotIndex_of_ge {slot : BitVec 3} (h : 6 ≤ slot.toNat) : slotIndex slot = none :=
  dif_neg (Nat.not_lt.2 h)

/-- Slot i is the display window's address i + 1 (R61). -/
theorem slotAddr_toNat (slot : BitVec 3) : (slot.setWidth 16 + 1 : HostAddr).toNat = slot.toNat + 1 := by
  have := slot.isLt
  have hone : (1 : HostAddr).toNat = 1 := rfl
  rw [BitVec.toNat_add, BitVec.toNat_setWidth, hone]
  omega

end Machine

open Machine

/-- Settles O57: the bytes put together are the command word (`decode_commandBytes`), whose fields are those written
into it; the slot of a `DBSET` survives the address field it is written through. -/
theorem decodeOfEncodeIsIdentity : Obligations.DecodeOfEncodeIsIdentity := by
  intro i hwf
  cases i with
  | subleq a b c => rfl
  | dbset slot data =>
    have hslot : commandSlot (commandWord 4 (slot.setWidth 16) data) = slot := by simp
    have hrange : slotInRange slot = true := hwf
    rw [encode, decode_commandBytes, decodeCommand_of_dbset (by simp), hslot, if_pos hrange, commandData_commandWord]
  | read | write | peekKey | getKey | run =>
    rw [encode, decode_commandBytes]
    simp [decodeCommand]

/-- Settles O47: `WRITE` at the slot's address in the window is the same `setSlot`. -/
theorem dbsetStoresWholeSlotLikeWrite : Obligations.DbsetStoresWholeSlotLikeWrite := by
  intro s slot data hidle
  refine ⟨fun i hi => ?_, fun h => ?_⟩
  · have hdbset : exec (.dbset slot data) s = .next { s with db := s.db.set i data, response := .done } := by
      simp only [exec, execDbset, accept_idle hidle, slotIndex_of_lt hi]
      rfl
    have haddr : (slot.setWidth 16 + 1 : HostAddr).toNat = i.val + 1 := by rw [slotAddr_toNat, hi]
    obtain ⟨hwrite, -⟩ := writeStoresByteOrReportsOutOfRange s (slot.setWidth 16 + 1) data hidle
    refine ⟨hdbset, ?_⟩
    rw [hdbset, hwrite ⟨i.val + 1, by simp only [Config.memSize]; omega⟩ haddr, memWrite_of_slot s (i := i) rfl]
    rfl
  · simp only [exec, execDbset, accept_idle hidle, slotIndex_of_ge h]

/-- Settles O53: the port decodes the word and executes the answer. -/
theorem stepRunsOfferedCommand : Obligations.StepRunsOfferedCommand := by
  intro s w i rest hd
  rw [step_command, hd, execDecoded]

/-- Settles O58: `DBSET`'s slot is the one operand that can be ill formed, and the decoder rejects it then. -/
theorem decodedInstructionsAreWellFormed : Obligations.DecodedInstructionsAreWellFormed := by
  refine ⟨fun bytes i h => ?_, fun _ _ _ => rfl⟩
  obtain ⟨a, b, c, -, rfl⟩ | ⟨w, hw⟩ := decode_eq_instr h
  · rfl
  · exact wellFormed_of_decodeCommand hw

/-- Settles O59, by evaluation of the decoder on each word. -/
theorem writtenWordsDecodeAsTheSpecSays : Obligations.WrittenWordsDecodeAsTheSpecSays := by
  unfold Obligations.WrittenWordsDecodeAsTheSpecSays
  decide

end Sys2Proof
end

section
/-! Proofs, family `40_display_multiplexer.md`: what a tick shows, which digit it enables, and six ticks in a row
(R122 to R124, R128). -/

namespace Sys2Proof

namespace Machine

/-! Ticks in a row: the digit cycler and the enabled digit (R123, R124) -/

/-- The digit cycler after n ticks: n further, modulo 6 (R124). -/
theorem ticks_currentDigit (rows : List Rows) (s : State) :
    (ticks rows s).currentDigit = s.currentDigit + Fin.ofNat 6 rows.length := by
  induction rows generalizing s with
  | nil => exact (add_zero s.currentDigit).symm
  | cons r rows ih =>
    have hlength : Fin.ofNat 6 (rows.length + 1) = 1 + Fin.ofNat 6 rows.length :=
      Fin.ext (by simp [Fin.val_add, add_comm])
    calc (ticks (r :: rows) s).currentDigit
        = (tick r s).currentDigit + Fin.ofNat 6 rows.length := ih (tick r s)
      _ = s.currentDigit + Fin.ofNat 6 (r :: rows).length := by
          rw [tick_currentDigit, List.length_cons, hlength, add_assoc]

/-- The last of n + 1 ticks enables the digit the n ticks before it made current (R123). -/
theorem ticks_concat_digitSel (rows : List Rows) (r : Rows) (s : State) :
    (ticks (rows ++ [r]) s).digitSel = some (s.currentDigit + Fin.ofNat 6 rows.length) := by
  have hlast : ticks (rows ++ [r]) s = tick r (ticks rows s) := List.foldl_concat ..
  rw [hlast, tick_digitSel, ticks_currentDigit]

/-- A run over the first n of some tick arrivals. -/
theorem runs_ticks_take (rows : List Rows) {n : Nat} (hn : n ≤ rows.length) (s : State) (rest : List Arrival) :
    runs n (s.withArrivals (rows.map .tick ++ rest)) =
      .next ((ticks (rows.take n) s).withArrivals ((rows.drop n).map .tick ++ rest)) := by
  have h := runs_ticks (rows.take n) s ((rows.drop n).map .tick ++ rest)
  rwa [← List.append_assoc, ← List.map_append, List.take_append_drop, List.length_take_of_le hn] at h

end Machine

open Machine

/-- Settles O12: digit d is enabled by the tick after `d - currentDigit` others (mod 6), and by no other of the six. -/
theorem sixTicksEnableEveryDigitOnce : Obligations.SixTicksEnableEveryDigitOnce := by
  intro s rows rest d
  refine ⟨d - s.currentDigit, fun k' => ?_⟩
  have hk : k'.val < (List.ofFn rows).length := by simp
  have hsel : (ticks ((List.ofFn rows).take (k'.val + 1)) s).digitSel = some (s.currentDigit + k') := by
    rw [List.take_succ_eq_append_getElem hk, ticks_concat_digitSel, List.length_take_of_le hk.le, Fin.ofNat_val_eq_self]
  refine ⟨_, runs_ticks_take _ hk s rest, hsel, ?_, fun hlast => ?_⟩
  · exact hsel ▸ Option.some_inj.trans eq_sub_iff_add_eq'.symm
  · have hsix : Fin.ofNat 6 ((List.ofFn rows).take (k'.val + 1)).length = 0 := by
      rw [List.length_take_of_le hk, hlast]
      rfl
    exact (ticks_currentDigit _ s).trans (by rw [hsix, add_zero])

/-- Settles O11: the tick's own writes, and O55's frame for every other arrival but a reset. -/
theorem tickEnablesDigitAndAdvances : Obligations.TickEnablesDigitAndAdvances := by
  refine ⟨fun s rows rest => ?_, fun s t h htick hreset => ?_⟩
  · refine ⟨_, step_tick s rest rows, tick_digitSel rows _, tick_segOut rows _, ?_⟩
    rw [tick_currentDigit, Fin.val_add]
    rfl
  · have hkept := foregroundChangesNoTickState s t h htick hreset
    exact ⟨hkept.digitSel, hkept.segOut, hkept.currentDigit⟩

/-- Settles O10: the segment lines are the `glyph` of the whole slot; a window read drops its high nibble. -/
theorem tickLooksUpGlyph : Obligations.TickLooksUpGlyph := by
  intro s rows rest
  have hseg : (tick rows (s.withArrivals rest)).segOut = glyph s.db[s.currentDigit] := tick_segOut rows _
  exact ⟨_, step_tick s rest rows, fun g hg => hseg.trans (glyph_of_index hg), fun h => hseg.trans (glyph_of_gt h),
    glyph_of_index rfl, glyph_of_gt (by decide), fun g => nofun, memRead_memWrite_self s 1 0x12,
    memRead_memWrite_self s 1 0x22⟩

end Sys2Proof
end

section
/-! Proofs, family `41_keyboard_scanner.md`: what a tick does in each state of the scanner, the debounce, and the
latency of a steady press under the ideal matrix (R141 to R152). -/

namespace Sys2Proof

namespace Machine

/-! The probe (R141) -/

/-- A contact is exactly one low row. -/
theorem contact_eq_some_iff (rows : Rows) (r : Fin 4) :
    contact rows = some r ↔ ∀ q : Fin 4, rows.getLsbD q.val = false ↔ q = r := by
  decide +revert

/-- The row values without a contact: all but the four with one low row. -/
theorem contact_eq_none_iff (rows : Rows) :
    contact rows = none ↔ rows ≠ 0b1110 ∧ rows ≠ 0b1101 ∧ rows ≠ 0b1011 ∧ rows ≠ 0b0111 := by
  decide +revert

/-! One tick: the row it records, the column it leaves, and the state it goes to (R140, R147) -/

/-- Every scan records what its own probe saw (R141). -/
theorem scan_activeRow (rows : Rows) (ks : KeyboardState) : (scan rows ks).activeRow = contact rows := by
  cases hc : contact rows with
  | none => rw [scan_none hc]
  | some r =>
    simp only [scan, hc]
    split <;> [rfl; split <;> rfl]

/-- A contact parks the column (R148). -/
theorem tick_activeColumn_of_contact {rows : Rows} (h : contact rows ≠ none) (s : State) :
    (tick rows s).ks.activeColumn = s.ks.activeColumn := by
  obtain ⟨r, hr⟩ := Option.ne_none_iff_exists'.1 h
  simp only [tick_ks, scan, hr]
  split <;> [rfl; split <;> rfl]

/-- A tick without contact leaves the scanner idle with nothing latched, whatever it was (R144). -/
theorem tick_released {rows : Rows} (h : contact rows = none) (s : State) :
    (tick rows s).ks.isIdle ∧ (tick rows s).ks.currentCode = 0xFF := by
  rw [tick_ks, scan_none h]
  exact ⟨⟨rfl, rfl⟩, rfl⟩

/-- From Idle a contact arms and latches no code (R142). -/
theorem tick_armed {rows : Rows} {r : Fin 4} (h : contact rows = some r) {s : State} (hidle : s.ks.isIdle) :
    (tick rows s).ks.isArmed ∧ (tick rows s).ks.currentCode = s.ks.currentCode := by
  obtain ⟨hlatch, hheld⟩ := hidle
  rw [tick_ks, scan_arm h hlatch]
  exact ⟨⟨rfl, hheld⟩, rfl⟩

/-- From Idle no single tick reaches Held (R147, R149). -/
theorem tick_not_held (rows : Rows) {s : State} (hidle : s.ks.isIdle) : (tick rows s).ks.keyHeld = false := by
  cases hc : contact rows with
  | none =>
    obtain ⟨⟨-, hheld⟩, -⟩ := tick_released hc s
    exact hheld
  | some r =>
    obtain ⟨⟨-, hheld⟩, -⟩ := tick_armed hc hidle
    exact hheld

/-- A contact leaves the column lines alone (R144, R148). -/
theorem tick_colDrive_of_contact {rows : Rows} (h : contact rows ≠ none) (s : State) :
    (tick rows s).colDrive = s.colDrive := by
  rw [tick_colDrive, columnAfter, if_neg h]

/-- Where no key is held no code is latched (R39). -/
theorem KeyboardState.Inv.code_eq_sentinel {ks : KeyboardState} (h : ks.Inv) (hheld : ks.keyHeld = false) :
    ks.currentCode = 0xFF := by
  by_contra hcode
  simp [h.codeWhenHeld.1 hcode] at hheld

/-! A held key: two contacts reach it, further contacts keep it (R143, R149) -/

/-- A key is held with its code latched, the scanner parked on a column and a column driven. -/
structure HoldsKey (code : Byte) (column driven : Fin 5) (s : State) : Prop where
  held : s.ks.isHeld
  code : s.ks.currentCode = code
  column : s.ks.activeColumn = column
  driven : s.colDrive = driven

/-- From Idle two contact ticks hold the key at the second tick's row and the parked column (R142, R143). -/
theorem holdsKey_of_two_contacts {first second : Rows} {r1 r2 : Fin 4} {s : State} (hidle : s.ks.isIdle)
    (h1 : contact first = some r1) (h2 : contact second = some r2) :
    HoldsKey (keyMatrix r2 s.ks.activeColumn) s.ks.activeColumn s.colDrive (tick second (tick first s)) := by
  obtain ⟨⟨hlatch, hheld⟩, -⟩ := tick_armed h1 hidle
  have hcol : (tick first s).ks.activeColumn = s.ks.activeColumn :=
    tick_activeColumn_of_contact (by simp [h1]) s
  have hks : (tick second (tick first s)).ks =
      { (tick first s).ks with
        activeRow := some r2, currentCode := keyMatrix r2 (tick first s).ks.activeColumn, keyHeld := true } := by
    rw [tick_ks second, scan_latch h2 hlatch hheld]
  have hdrive : (tick second (tick first s)).colDrive = s.colDrive := by
    rw [tick_colDrive_of_contact (by simp [h2]), tick_colDrive_of_contact (by simp [h1])]
  exact ⟨by rw [hks]; exact ⟨hlatch, rfl⟩, by rw [hks, hcol], by rw [hks]; exact hcol, hdrive⟩

/-- A further contact keeps the held key (R143). -/
theorem HoldsKey.after_tick {code : Byte} {column driven : Fin 5} {s : State} (hs : HoldsKey code column driven s)
    {rows : Rows} (h : contact rows ≠ none) : HoldsKey code column driven (tick rows s) := by
  obtain ⟨⟨hlatch, hheld⟩, hcode, hcol, hdrive⟩ := hs
  obtain ⟨r, hr⟩ := Option.ne_none_iff_exists'.1 h
  have hks : (tick rows s).ks = { s.ks with activeRow := some r } := by
    rw [tick_ks, scan_hold hr hlatch hheld]
  rw [← tick_colDrive_of_contact h] at hdrive
  exact ⟨by rw [hks]; exact ⟨hlatch, hheld⟩, by rw [hks]; exact hcode, by rw [hks]; exact hcol, hdrive⟩

/-- Any number of further contacts keep the held key (R149). -/
theorem HoldsKey.after_ticks {code : Byte} {column driven : Fin 5} {more : List Rows}
    (hmore : ∀ rows ∈ more, contact rows ≠ none) {s : State} (hs : HoldsKey code column driven s) :
    HoldsKey code column driven (ticks more s) := by
  induction more generalizing s with
  | nil => exact hs
  | cons rows more ih =>
    obtain ⟨hrows, hmore⟩ := List.forall_mem_cons.1 hmore
    exact ih hmore (hs.after_tick hrows)

/-! A steady press under the ideal matrix (R151, R152) -/

/-- One key down is a contact exactly when its column is driven (R152). -/
theorem contact_onlyKey (r : Fin 4) (k driven : Fin 5) :
    contact (idealRows (onlyKey r k) driven) = if driven = k then some r else none := by
  decide +revert

/-- The last of n + 1 ticks. -/
theorem idealTicks_succ (pressed : Fin 4 → Fin 5 → Bool) (n : Nat) (s : State) :
    idealTicks pressed (n + 1) s =
      tick (idealRows pressed (idealTicks pressed n s).colDrive) (idealTicks pressed n s) := by
  induction n generalizing s with
  | zero => rfl
  | succ n ih => exact ih (tick (idealRows pressed s.colDrive) s)

theorem idealTicks_sound (pressed : Fin 4 → Fin 5 → Bool) (n : Nat) {s : State} (hs : SoundState s) :
    SoundState (idealTicks pressed n s) := by
  induction n generalizing s with
  | zero => exact hs
  | succ n ih => exact ih (tick_sound _ hs)

/-- Advancing by one column brings the scanner one column nearer (R151). -/
theorem columnDistance_succ {column k : Fin 5} (h : column ≠ k) :
    (k - (column + 1)).val + 1 = (k - column).val := by
  decide +revert

/-- Until the scanner reaches the key's column every tick leaves it idle and one column further (R144). -/
theorem idealTicks_idle {s : State} (hs : SoundState s) (hidle : s.ks.isIdle) (r : Fin 4) (k : Fin 5) {n : Nat}
    (hn : n ≤ (k - s.ks.activeColumn).val) :
    (idealTicks (onlyKey r k) n s).ks.isIdle ∧
      (k - (idealTicks (onlyKey r k) n s).ks.activeColumn).val + n = (k - s.ks.activeColumn).val := by
  induction n with
  | zero => exact ⟨hidle, rfl⟩
  | succ n ih =>
    obtain ⟨-, hcount⟩ := ih (by omega)
    have hdriven := (idealTicks_sound (onlyKey r k) n hs).columnDriven
    rw [idealTicks_succ]
    generalize idealTicks (onlyKey r k) n s = t at hcount hdriven ⊢
    have hcol : t.ks.activeColumn ≠ k := by
      rintro rfl
      simp only [sub_self, Fin.val_zero] at hcount
      omega
    have hnone : contact (idealRows (onlyKey r k) t.colDrive) = none := by
      rw [contact_onlyKey, hdriven, if_neg hcol]
    have hnext : (tick (idealRows (onlyKey r k) t.colDrive) t).ks.activeColumn = t.ks.activeColumn + 1 := by
      rw [tick_ks, scan_none hnone]
    refine ⟨(tick_released hnone t).1, ?_⟩
    rw [hnext, ← hcount, ← columnDistance_succ hcol, add_right_comm, add_assoc]

/-- At the key's column two ticks latch the key, and it stays held (R142, R143, R151). -/
theorem idealTicks_holdsKey {s : State} (hs : SoundState s) (hidle : s.ks.isIdle) (r : Fin 4) (k : Fin 5) (m : Nat) :
    HoldsKey (keyMatrix r k) k k (idealTicks (onlyKey r k) ((k - s.ks.activeColumn).val + 2 + m) s) := by
  have hparked : contact (idealRows (onlyKey r k) k) = some r := by rw [contact_onlyKey, if_pos rfl]
  have hcontact : contact (idealRows (onlyKey r k) k) ≠ none := by simp [hparked]
  induction m with
  | zero =>
    obtain ⟨hidle, hcount⟩ := idealTicks_idle hs hidle r k le_rfl
    have hdriven := (idealTicks_sound (onlyKey r k) (k - s.ks.activeColumn).val hs).columnDriven
    rw [add_zero, idealTicks_succ, idealTicks_succ]
    generalize idealTicks (onlyKey r k) (k - s.ks.activeColumn).val s = t at hidle hcount hdriven ⊢
    have hcol : t.ks.activeColumn = k := by
      rw [Nat.add_eq_right, Fin.val_eq_zero_iff, sub_eq_zero] at hcount
      exact hcount.symm
    have hdrive : t.colDrive = k := hdriven.trans hcol
    have hheld := holdsKey_of_two_contacts hidle hparked hparked
    rw [hcol, hdrive] at hheld
    rw [hdrive, tick_colDrive_of_contact hcontact, hdrive]
    exact hheld
  | succ m ih =>
    rw [← add_assoc, idealTicks_succ, ih.driven]
    exact ih.after_tick hcontact

/-- Before tick (k - x) mod 5 + 2 no key is held (R151). -/
theorem idealTicks_not_held {s : State} (hs : SoundState s) (hidle : s.ks.isIdle) (r : Fin 4) (k : Fin 5) {n : Nat}
    (hn : n < (k - s.ks.activeColumn).val + 2) : (idealTicks (onlyKey r k) n s).ks.keyHeld = false := by
  cases n with
  | zero => exact hidle.2
  | succ n =>
    obtain ⟨hbefore, -⟩ := idealTicks_idle hs hidle r k (Nat.lt_succ_iff.1 (Nat.lt_of_succ_lt_succ hn))
    rw [idealTicks_succ]
    exact tick_not_held _ hbefore

end Machine

open Machine

/-- Settles O19: two contacts hold the key, further contacts keep it held, a single one only arms. -/
theorem debounceNeedsTwoContacts : Obligations.DebounceNeedsTwoContacts := by
  intro s first second last more r1 r2 rest hidle h1 h2 hmore hlast
  refine ⟨?_, ?_⟩
  · have hheld := (holdsKey_of_two_contacts hidle h1 h2).after_ticks hmore
    exact ⟨_, runs_ticks (first :: second :: more) s rest, hheld.held, hheld.code, hheld.column, hheld.driven,
      _, step_tick _ rest last, tick_released hlast _⟩
  · obtain ⟨harmed, hcode⟩ := tick_armed h1 hidle
    exact ⟨_, _, runs_ticks [first] s (.tick last :: rest), step_tick _ rest last, harmed, hcode, tick_released hlast _⟩

/-- Settles O20: (k - x) mod 5 idle ticks, the arming tick, the latching tick, and then the held key. -/
theorem steadyPressLatencyIsTwoToSixTicks : Obligations.SteadyPressLatencyIsTwoToSixTicks := by
  intro s r k hs hidle
  refine ⟨fun n hn => ?_, fun n hn => ?_⟩
  · exact (idealTicks_sound _ n hs).keyboard.code_eq_sentinel (idealTicks_not_held hs hidle r k hn)
  · obtain ⟨m, rfl⟩ := Nat.exists_eq_add_of_le hn
    have hheld := idealTicks_holdsKey hs hidle r k m
    exact ⟨hheld.code, hheld.column, hheld.held⟩

/-- Settles O14: the scan records its probe, and the probe's answers are those of one low row. -/
theorem contactIsExactlyOneLowRow : Obligations.ContactIsExactlyOneLowRow := by
  intro s rows rest
  have hrow : (tick rows (s.withArrivals rest)).ks.activeRow = contact rows := by rw [tick_ks, scan_activeRow]
  refine ⟨_, step_tick s rest rows, fun r => ?_, fun r => by rw [hrow], rfl, rfl, rfl, rfl, contact_eq_none_iff rows⟩
  rw [hrow, contact_eq_some_iff]

/-- Settles O15: the arming scan; a contact leaves the column lines alone. -/
theorem firstContactArms : Obligations.FirstContactArms := by
  intro s rows r rest hc hlatch
  refine ⟨_, step_tick s rest rows, ?_, tick_colDrive_of_contact (by simp [hc]) _⟩
  rw [tick_ks]
  exact scan_arm hc hlatch

/-- Settles O16: the latching scan and the holding scan; a contact leaves the column lines alone. -/
theorem secondContactLatchesCode : Obligations.SecondContactLatchesCode := by
  intro s rows r rest hc hlatch
  refine ⟨_, step_tick s rest rows, tick_colDrive_of_contact (by simp [hc]) _, fun hheld => ?_, fun hheld => ?_⟩
  · rw [tick_ks]
    exact scan_latch hc hlatch hheld
  · rw [tick_ks]
    exact scan_hold hc hlatch hheld

/-- Settles O17: the releasing scan, which writes the whole Keyboard State. -/
theorem noContactReleasesAndAdvancesColumn : Obligations.NoContactReleasesAndAdvancesColumn := by
  intro s rows rest hc
  have hks := (tick_ks rows (s.withArrivals rest)).trans (scan_none hc _)
  have hdrive : (tick rows (s.withArrivals rest)).colDrive = s.ks.activeColumn + 1 := by
    rw [tick_colDrive]
    exact if_pos hc
  refine ⟨_, step_tick s rest rows, ?_⟩
  rw [hdrive, hks]
  exact ⟨rfl, rfl, rfl, rfl, Fin.val_add _ _, rfl⟩

/-- Settles O18: a contact parks the column, and without one it goes to a different column. -/
theorem columnParksDuringContact : Obligations.ColumnParksDuringContact := by
  intro s rows
  refine ⟨fun hmoved => ?_, fun hc => ?_⟩
  · by_contra hc
    exact hmoved (tick_activeColumn_of_contact hc s)
  · rw [tick_ks, scan_none hc]
    exact add_ne_left.2 (by decide)

end Sys2Proof
end

section
/-! Proofs, family `42_key_input.md`: `PEEK_KEY`, and `GET_KEY` from the first poll to its return: the codes it answers,
the display it leaves, the polls that go on (R160 to R172). -/

namespace Sys2Proof

namespace Machine

/-! Each poll of `GetKey`, and its return (R163) -/

theorem microStep_getKey {s : State} {caller : Caller} {p : GetKeyPhase} (h : s.fg = .getKey caller p) :
    microStep s = getKeyStep caller p s := by
  simp only [microStep, h]

theorem disturbedStep_getKey {s : State} {caller : Caller} {p : GetKeyPhase} (h : s.fg = .getKey caller p)
    (rows : List Rows) : disturbedStep rows s = getKeyStep caller p (ticks rows s) :=
  microStep_getKey ((ticks_foregroundStateKept rows s).fg.trans h)

section
variable {s : State} (caller : Caller)

/-- Only the host is answered; after a run the code is discarded and `RUN` completes (R163, R186). -/
theorem getKeyReturn_eq (v : Byte) (s : State) :
    getKeyReturn caller v s = { s with fg := .idle, response := if caller = .host then .datum v else .done } := by
  cases caller <;> rfl

theorem getKeyPoll_of_sentinel (h : s.ks.currentCode = Config.sentinel) :
    getKeyPoll caller s = { s with gk := { s.gk with k := s.ks.currentCode } } :=
  if_pos h

theorem getKeyPoll_of_shift (h : s.ks.currentCode = Config.shiftCode) :
    getKeyPoll caller s =
      { s with fg := .getKey caller (.gk3Save 0), gk := { s.gk with k := s.ks.currentCode } } := by
  have hne : s.ks.currentCode ≠ Config.sentinel := by rw [h]; decide
  exact (if_neg hne).trans (if_pos h)

theorem getKeyPoll_of_plain (h : s.ks.currentCode ≠ Config.sentinel) (h' : s.ks.currentCode ≠ Config.shiftCode) :
    getKeyPoll caller s = { s with fg := .getKey caller .gk2, gk := { s.gk with k := s.ks.currentCode } } :=
  (if_neg h).trans (if_neg h')

theorem getKeySecond_of_sentinel (h : s.ks.currentCode = Config.sentinel) :
    getKeySecond caller s = { s with gk := { s.gk with d := s.ks.currentCode } } :=
  if_pos h

theorem getKeySecond_of_code (h : s.ks.currentCode ≠ Config.sentinel) :
    getKeySecond caller s =
      { s with
        fg := .getKey caller .gk6
        gk := { s.gk with d := s.ks.currentCode, m := (secondaryMap s.ks.currentCode s.draws).1 }
        draws := (secondaryMap s.ks.currentCode s.draws).2 } :=
  if_neg h

theorem getKeyRelease_of_held (h : s.ks.keyHeld = true) : getKeyRelease caller s = s := if_pos h

theorem getKeyRelease_of_released (h : s.ks.keyHeld = false) :
    getKeyRelease caller s = getKeyReturn caller s.gk.k s := if_neg (by simp [h])

theorem getKeyShiftRelease_of_held (h : s.ks.keyHeld = true) : getKeyShiftRelease caller s = s := if_pos h

theorem getKeyShiftRelease_of_released (h : s.ks.keyHeld = false) :
    getKeyShiftRelease caller s = s.goto (.getKey caller .gk5) := if_neg (by simp [h])

theorem getKeySecondRelease_of_held (h : s.ks.keyHeld = true) : getKeySecondRelease caller s = s := if_pos h

theorem getKeySecondRelease_of_released (h : s.ks.keyHeld = false) :
    getKeySecondRelease caller s = s.goto (.getKey caller (.gk7 0)) := if_neg (by simp [h])

end

/-! What a step can be while the host stays away or is refused (R10, R200) -/

/-- Where no instruction begins, no reset comes and no command is accepted, a step is a tick or a micro-step. -/
theorem step_tick_or_micro {s t : State} (hfg : s.fg ≠ .e1)
    (hcommand : s.fg ≠ .idle ∨ ∀ w, s.arrivals.head? ≠ some (.command w))
    (hreset : ∀ mem0 db0, s.arrivals.head? ≠ some (.reset mem0 db0)) (h : step s = .next t) :
    ∃ rest ⊆ s.arrivals, (∃ rows, .tick rows ∈ s.arrivals ∧ t = (tick rows s).withArrivals rest) ∨
      t = (microStep s).withArrivals rest := by
  obtain ⟨ha, hs⟩ | ⟨rest, ⟨rows, ha, hs⟩ | ⟨w, ha, hs⟩ | ⟨m, d, ha, hs⟩ | ⟨ha, hs⟩ | ⟨ha, hs⟩⟩ := step_cases s
  · rw [h, proceed_eq, if_neg hfg, Host.Outcome.next.injEq] at hs
    refine ⟨s.arrivals, List.Subset.refl _, .inr ?_⟩
    rw [hs, ← microStep_withArrivals, State.withArrivals_self]
  · rw [h, Host.Outcome.next.injEq, tick_withArrivals] at hs
    exact ⟨rest, by simp [ha], .inl ⟨rows, by simp [ha], hs⟩⟩
  · cases hd : decodeCommand w with
    | rejected e =>
      rw [h, hd] at hs
      cases hs
    | instr i =>
      have hbusy : s.fg ≠ .idle := hcommand.resolve_right fun hno => hno w (by simp [ha])
      have hrefused : step s = .refused .busy := hs.trans <| by
        rw [hd]
        exact exec_busy (decodeCommand_ne_subleq hd) hbusy
      rw [h] at hrefused
      cases hrefused
  · exact absurd (by simp [ha]) (hreset m d)
  · rw [h, Host.Outcome.next.injEq, microStep_withArrivals] at hs
    exact ⟨rest, by simp [ha], .inr hs⟩
  · rw [h, proceed_eq, State.withArrivals_fg, if_neg hfg, Host.Outcome.next.injEq, microStep_withArrivals] at hs
    exact ⟨rest, by simp [ha], .inr hs⟩

/-- Without host arrivals, outside an instruction: a tick or a micro-step. -/
theorem step_tick_or_micro_of_no_host {s t : State} (hfg : s.fg ≠ .e1) (hhost : ∀ x ∈ s.arrivals, x.fromHost = false)
    (h : step s = .next t) :
    ∃ rest ⊆ s.arrivals, (∃ rows, .tick rows ∈ s.arrivals ∧ t = (tick rows s).withArrivals rest) ∨
      t = (microStep s).withArrivals rest := by
  have hhead {x : Arrival} (hx : x.fromHost = true) : s.arrivals.head? ≠ some x := fun he => by
    rw [hhost x (List.mem_of_mem_head? he)] at hx
    cases hx
  exact step_tick_or_micro hfg (.inr fun w => hhead rfl) (fun _ _ => hhead rfl) h

/-! The display that `GetKey` found (R165, R168) -/

/-- Slots copied one after the other: with those before slot i copied, all up to it are. -/
theorem Slots.set_eq_of_le {v w : Slots} {i : Fin 6} (h : ∀ j : Fin 6, j < i → v[j] = w[j]) {j : Fin 6}
    (hj : j ≤ i) : (v.set i w[i])[j] = w[j] := by
  by_cases hij : i = j
  · subst hij
    simp
  · have hval : i.val ≠ j.val := fun e => hij (Fin.ext e)
    simpa [Vector.getElem_set, hval] using h j (lt_of_le_of_ne hj (Ne.symm hij))

/-- Where the display found by `GetKey` is, phase by phase: in the slots up to the saves, in the saved slots from the
fills to the restores, back in the slots after them. -/
def foundDisplayAt (found : Slots) (s : State) : Prop :=
  match s.fg with
  | .idle => s.db = found
  | .getKey _ .gk1 => s.db = found
  | .getKey _ .gk2 => s.db = found
  | .getKey _ (.gk3Save i) => s.db = found ∧ ∀ j : Fin 6, j < i → s.gk.saved[j] = found[j]
  | .getKey _ (.gk3Fill _) => s.gk.saved = found
  | .getKey _ .gk4 => s.gk.saved = found
  | .getKey _ .gk5 => s.gk.saved = found
  | .getKey _ .gk6 => s.gk.saved = found
  | .getKey _ (.gk7 i) => s.gk.saved = found ∧ ∀ j : Fin 6, j < i → s.db[j] = found[j]
  | .getKey _ .gk8 => s.db = found
  | _ => False

/-- Every micro-step of `GetKey` keeps track of the display it found. -/
theorem getKeyStep_foundDisplayAt {found : Slots} {caller : Caller} {p : GetKeyPhase} {s : State}
    (hfg : s.fg = .getKey caller p) (h : foundDisplayAt found s) : foundDisplayAt found (getKeyStep caller p s) := by
  have hkept : foundDisplayAt found s := h
  simp only [foundDisplayAt, hfg] at h
  cases p with
  | gk1 =>
    simp only [getKeyStep, getKeyPoll]
    split
    · simpa only [foundDisplayAt, hfg] using h
    · split
      · exact ⟨h, fun j hj => absurd hj (Fin.not_lt_zero j)⟩
      · exact h
  | gk2 =>
    simp only [getKeyStep, getKeyRelease, getKeyReturn_eq]
    split
    · exact hkept
    · exact h
  | gk3Save i =>
    obtain ⟨hdb, hsaved⟩ := h
    have hcopied (j : Fin 6) (hj : j ≤ i) : (s.gk.saved.set i (s.slot i))[j] = found[j] := by
      rw [State.slot, hdb]
      exact Slots.set_eq_of_le hsaved hj
    simp only [getKeyStep, getKeySave]
    split
    next j hj =>
      have := nextSlot_eq_some hj
      exact ⟨hdb, fun k hk => hcopied k (by omega)⟩
    next hi =>
      have := nextSlot_eq_none hi
      exact Vector.ext fun k hk => hcopied ⟨k, hk⟩ (by simp only [Fin.le_def]; omega)
  | gk3Fill i =>
    simp only [getKeyStep, getKeyFill]
    split <;> exact h
  | gk4 =>
    simp only [getKeyStep, getKeyShiftRelease]
    split
    · exact hkept
    · exact h
  | gk5 =>
    simp only [getKeyStep, getKeySecond]
    split
    · simpa only [foundDisplayAt, hfg] using h
    · exact h
  | gk6 =>
    simp only [getKeyStep, getKeySecondRelease]
    split
    · exact hkept
    · exact ⟨h, fun j hj => absurd hj (Fin.not_lt_zero j)⟩
  | gk7 i =>
    obtain ⟨hsaved, hdb⟩ := h
    have hcopied (j : Fin 6) (hj : j ≤ i) : (s.setSlot i s.gk.saved[i]).db[j] = found[j] := by
      rw [State.setSlot_db, hsaved]
      exact Slots.set_eq_of_le hdb hj
    simp only [getKeyStep, getKeyRestore]
    split
    next j hj =>
      have := nextSlot_eq_some hj
      exact ⟨hsaved, fun k hk => hcopied k (by omega)⟩
    next hi =>
      have := nextSlot_eq_none hi
      exact Vector.ext fun k hk => hcopied ⟨k, hk⟩ (by simp only [Fin.le_def]; omega)
  | gk8 =>
    simp only [getKeyStep, getKeyReturn_eq]
    exact h

/-- `t` is reached from `s` within one `GetKey`, or after it with the foreground idle: the display of `s` is where
the phase has it, and memory, program counter and operand latches are those of `s`. -/
structure WithinGetKey (s t : State) : Prop where
  display : foundDisplayAt s.db t
  mem : t.mem = s.mem
  pc : t.pc = s.pc
  latch : t.latch = s.latch

section
variable {s t : State}

theorem WithinGetKey.of_gk1 {caller : Caller} (h : s.fg = .getKey caller .gk1) : WithinGetKey s s :=
  ⟨by simp only [foundDisplayAt, h], rfl, rfl, rfl⟩

theorem WithinGetKey.db_of_idle (h : WithinGetKey s t) (hidle : t.fg = .idle) : t.db = s.db := by
  simpa only [foundDisplayAt, hidle] using h.display

theorem WithinGetKey.saved_of_gk4 (h : WithinGetKey s t) {caller : Caller} (hfg : t.fg = .getKey caller .gk4) :
    t.gk.saved = s.db := by
  simpa only [foundDisplayAt, hfg] using h.display

/-- `GetKey` never goes to another operation of the foreground. -/
theorem WithinGetKey.fg_cases (h : WithinGetKey s t) : t.fg = .idle ∨ ∃ caller p, t.fg = .getKey caller p := by
  have hdisplay := h.display
  cases hfg : t.fg with
  | idle => exact .inl rfl
  | getKey caller p => exact .inr ⟨caller, p, rfl⟩
  | e0 | e1 | e2 | e3 | e4 | e5 | e6 | e7 | e8 | e9 | x1 => simp only [foundDisplayAt, hfg] at hdisplay

theorem WithinGetKey.after_ticks (h : WithinGetKey s t) (rows : List Rows) : WithinGetKey s (ticks rows t) := by
  have hk := ticks_foregroundStateKept rows t
  refine ⟨?_, hk.mem.trans h.mem, hk.pc.trans h.pc, hk.latch.trans h.latch⟩
  unfold foundDisplayAt
  rw [hk.fg, hk.db, hk.gk]
  exact h.display

theorem WithinGetKey.after_microStep (h : WithinGetKey s t) : WithinGetKey s (microStep t) := by
  obtain hidle | ⟨caller, p, hfg⟩ := h.fg_cases
  · simpa only [microStep, hidle] using h
  · obtain ⟨-, hmem, hpc, hlatch, -⟩ := getKeyStep_frame caller p t
    rw [microStep_getKey hfg]
    exact ⟨getKeyStep_foundDisplayAt hfg h.display, hmem.trans h.mem, hpc.trans h.pc, hlatch.trans h.latch⟩

theorem WithinGetKey.after_disturbedStep (h : WithinGetKey s t) (rows : List Rows) :
    WithinGetKey s (disturbedStep rows t) := (h.after_ticks rows).after_microStep

theorem WithinGetKey.after_microSteps (h : WithinGetKey s t) (n : Nat) : WithinGetKey s (microStep^[n] t) :=
  Function.Iterate.rec (WithinGetKey s) h (fun _ => WithinGetKey.after_microStep) n

theorem WithinGetKey.withArrivals (h : WithinGetKey s t) (rest : List Arrival) :
    WithinGetKey s (t.withArrivals rest) := ⟨h.display, h.mem, h.pc, h.latch⟩

theorem WithinGetKey.after_step (h : WithinGetKey s t) (hhost : ∀ x ∈ t.arrivals, x.fromHost = false) {u : State}
    (hu : step t = .next u) : WithinGetKey s u ∧ ∀ x ∈ u.arrivals, x.fromHost = false := by
  have hfg : t.fg ≠ .e1 := by
    obtain hfg | ⟨caller, p, hfg⟩ := h.fg_cases <;> simp [hfg]
  obtain ⟨rest, hrest, ⟨rows, -, rfl⟩ | rfl⟩ := step_tick_or_micro_of_no_host hfg hhost hu
  · exact ⟨(h.after_ticks [rows]).withArrivals rest, fun x hx => hhost x (hrest hx)⟩
  · exact ⟨h.after_microStep.withArrivals rest, fun x hx => hhost x (hrest hx)⟩

end

/-! A poll that goes on (R169) -/

/-- What a poll waits on: the sentinel at GK1 and GK5, a held key at GK2, GK4 and GK6. -/
def GetKeyPhase.waitsOn (ks : KeyboardState) : GetKeyPhase → Prop
  | .gk1 | .gk5 => ks.currentCode = Config.sentinel
  | .gk2 | .gk4 | .gk6 => ks.keyHeld = true
  | _ => False

/-- The ticks that do not end a poll: those without contact at GK1 and GK5, those with one at GK2, GK4 and GK6. -/
def GetKeyPhase.outlasts (rows : Rows) : GetKeyPhase → Prop
  | .gk1 | .gk5 => contact rows = none
  | .gk2 | .gk4 | .gk6 => contact rows ≠ none
  | _ => False

/-- A contact keeps a held key held, whatever the latch (R143, R147). -/
theorem scan_held_of_contact {rows : Rows} (h : contact rows ≠ none) {ks : KeyboardState} (hheld : ks.keyHeld = true) :
    (scan rows ks).keyHeld = true := by
  obtain ⟨r, hr⟩ := Option.ne_none_iff_exists'.1 h
  cases hlatch : ks.debounceLatch with
  | false => rw [scan_arm hr hlatch]; exact hheld
  | true => rw [scan_hold hr hlatch hheld]; exact hheld

theorem GetKeyPhase.waitsOn_scan {p : GetKeyPhase} {rows : Rows} {ks : KeyboardState} (h : p.waitsOn ks)
    (hrows : p.outlasts rows) : p.waitsOn (scan rows ks) := by
  cases p with
  | gk1 | gk5 => rw [scan_none hrows]; rfl
  | gk2 | gk4 | gk6 => exact scan_held_of_contact hrows h
  | gk3Save | gk3Fill | gk7 | gk8 => exact h

theorem getKeyStep_fg_of_waitsOn {p : GetKeyPhase} {s : State} (caller : Caller) (h : p.waitsOn s.ks) :
    (getKeyStep caller p s).fg = s.fg := by
  cases p with
  | gk1 => rw [getKeyStep, getKeyPoll_of_sentinel caller h]
  | gk5 => rw [getKeyStep, getKeySecond_of_sentinel caller h]
  | gk2 => rw [getKeyStep, getKeyRelease_of_held caller h]
  | gk4 => rw [getKeyStep, getKeyShiftRelease_of_held caller h]
  | gk6 => rw [getKeyStep, getKeySecondRelease_of_held caller h]
  | gk3Save | gk3Fill | gk7 | gk8 => exact h.elim

/-- `GetKey` at a poll, with nothing to come that ends it. -/
structure Waiting (caller : Caller) (p : GetKeyPhase) (s : State) : Prop where
  fg : s.fg = .getKey caller p
  waits : p.waitsOn s.ks
  noHost : ∀ x ∈ s.arrivals, x.fromHost = false
  rows : ∀ rows, .tick rows ∈ s.arrivals → p.outlasts rows

theorem Waiting.after_step {caller : Caller} {p : GetKeyPhase} {s t : State} (h : Waiting caller p s)
    (ht : step s = .next t) : Waiting caller p t := by
  obtain ⟨hfg, hwaits, hhost, hrows⟩ := h
  obtain ⟨rest, hrest, ⟨rows, hmem, rfl⟩ | rfl⟩ := step_tick_or_micro_of_no_host (by simp [hfg]) hhost ht
  · refine ⟨by simp [hfg], ?_, fun x hx => hhost x (hrest hx), fun r hr => hrows r (hrest hr)⟩
    rw [State.withArrivals_ks, tick_ks]
    exact GetKeyPhase.waitsOn_scan hwaits (hrows rows hmem)
  · refine ⟨?_, ?_, fun x hx => hhost x (hrest hx), fun r hr => hrows r (hrest hr)⟩
    · rw [State.withArrivals_fg, microStep_getKey hfg, getKeyStep_fg_of_waitsOn caller hwaits, hfg]
    · rw [State.withArrivals_ks, (microStep_frame s).1.ks]
      exact hwaits

theorem Waiting.after_runs {caller : Caller} {p : GetKeyPhase} {n : Nat} {s t : State} (h : Waiting caller p s)
    (ht : runs n s = .next t) : Waiting caller p t :=
  runs_induction (fun _ _ hs hstep => hs.after_step hstep) h ht

/-! The return (R163, R168) -/

/-- The one micro-step after which the foreground is idle is the return of a code, from GK2 or from GK8. -/
theorem getKeyStep_fg_eq_idle {caller : Caller} {p : GetKeyPhase} {s : State} (hfg : s.fg = .getKey caller p)
    (h : (getKeyStep caller p s).fg = .idle) :
    (p = .gk2 ∧ getKeyStep caller p s = getKeyReturn caller s.gk.k s) ∨
      (p = .gk8 ∧ getKeyStep caller p s = getKeyReturn caller s.gk.m s) := by
  cases p with
  | gk2 =>
    cases hheld : s.ks.keyHeld with
    | false => exact .inl ⟨rfl, getKeyRelease_of_released caller hheld⟩
    | true =>
      rw [getKeyStep, getKeyRelease_of_held caller hheld, hfg] at h
      cases h
  | gk8 => exact .inr ⟨rfl, rfl⟩
  | gk1 =>
    simp only [getKeyStep, getKeyPoll] at h
    split at h <;> [skip; split at h] <;> simp [hfg] at h
  | gk3Save i => simp only [getKeyStep, getKeySave] at h; split at h <;> cases h
  | gk3Fill i => simp only [getKeyStep, getKeyFill] at h; split at h <;> cases h
  | gk4 => simp only [getKeyStep, getKeyShiftRelease] at h; split at h <;> simp [hfg] at h
  | gk5 => simp only [getKeyStep, getKeySecond] at h; split at h <;> simp [hfg] at h
  | gk6 => simp only [getKeyStep, getKeySecondRelease] at h; split at h <;> simp [hfg] at h
  | gk7 i => simp only [getKeyStep, getKeyRestore] at h; split at h <;> cases h

/-- In a sound state the code about to be returned is not the sentinel (R168). -/
theorem getKeyStep_response_of_idle {p : GetKeyPhase} {s : State} (hfg : s.fg = .getKey .host p) (hs : phaseSound s)
    (h : (getKeyStep .host p s).fg = .idle) :
    ∃ v, (getKeyStep .host p s).response = .datum v ∧ v ≠ Config.sentinel := by
  simp only [phaseSound, hfg] at hs
  obtain ⟨rfl, he⟩ | ⟨rfl, he⟩ := getKeyStep_fg_eq_idle hfg h
  · exact ⟨s.gk.k, by rw [he]; rfl, hs.1⟩
  · exact ⟨s.gk.m, by rw [he]; rfl, hs⟩

/-! A plain key, from the command to the answer (R163, R164, R204) -/

/-- An accepted `GET_KEY`: at GK1 for the host, with no result on the port. -/
def getKeyBegun (s : State) : State := (s.respond .nothing).goto (.getKey .host .gk1)

theorem step_getKey_command {s : State} (hidle : s.fg = .idle) (rest : List Arrival) :
    step (s.withArrivals (.command 0x3000000 :: rest)) =
      .next ((getKeyBegun s).withArrivals rest) := by
  rw [step_command, show decodeCommand 0x3000000 = .instr .getKey by decide, execDecoded, exec, execGetKey,
    accept_idle (s := s.withArrivals rest) hidle]
  rfl

/-- GK1 and GK2: the code read, the key released, the code returned. -/
theorem disturbedStep_plainKey {s : State} {caller : Caller} {off : Rows} (hfg : s.fg = .getKey caller .gk1)
    (hsentinel : s.ks.currentCode ≠ Config.sentinel) (hshift : s.ks.currentCode ≠ Config.shiftCode)
    (hoff : contact off = none) :
    (disturbedStep [off] (microStep s)).fg = .idle ∧
      (disturbedStep [off] (microStep s)).response =
        if caller = .host then .datum s.ks.currentCode else .done := by
  have hpoll := (microStep_getKey hfg).trans (getKeyPoll_of_plain caller hsentinel hshift)
  obtain ⟨⟨-, hheld⟩, -⟩ := tick_released hoff (microStep s)
  have hreturn : disturbedStep [off] (microStep s) =
      getKeyReturn caller (tick off (microStep s)).gk.k (tick off (microStep s)) :=
    (disturbedStep_getKey (p := .gk2) (by rw [hpoll]) [off]).trans (getKeyRelease_of_released caller hheld)
  rw [hreturn, getKeyReturn_eq, tick_gk, hpoll]
  exact ⟨rfl, rfl⟩

/-! The shift sequence, leg by leg (R163, R172) -/

/-- A run over micro-steps. -/
theorem runs_microSteps (n : Nat) (s : State) (rest : List Arrival) :
    runs n (s.withArrivals (List.replicate n .micro ++ rest)) = .next ((microStep^[n] s).withArrivals rest) := by
  induction n generalizing s with
  | zero => rfl
  | succ n ih =>
    refine (runs_of_next (step_micro s _) n).trans ?_
    rw [microStep_withArrivals]
    exact ih (microStep s)

theorem microSteps_ks (n : Nat) (s : State) : (microStep^[n] s).ks = s.ks :=
  Function.Iterate.rec (fun t => t.ks = s.ks) rfl (fun t h => (microStep_frame t).1.ks.trans h) n

theorem microSteps_phaseSound (n : Nat) {s : State} (h : phaseSound s) : phaseSound (microStep^[n] s) :=
  Function.Iterate.rec phaseSound h (fun _ => microStep_phaseSound) n

/-- Six micro-steps, one per slot in slot order: from what holds before slot 0 to what holds after slot 5. -/
theorem microSteps_over_slots {before : Fin 6 → State → Prop} {after : State → Prop}
    (hstep : ∀ i s, before i s → (nextSlot i).elim (after (microStep s)) (before · (microStep s))) {s : State}
    (h : before 0 s) : after (microStep^[6] s) := by
  have h1 : before 1 (microStep^[1] s) := hstep 0 _ h
  have h2 : before 2 (microStep^[2] s) := hstep 1 _ h1
  have h3 : before 3 (microStep^[3] s) := hstep 2 _ h2
  have h4 : before 4 (microStep^[4] s) := hstep 3 _ h3
  have h5 : before 5 (microStep^[5] s) := hstep 4 _ h4
  exact hstep 5 _ h5

theorem microSteps_saves {s : State} {caller : Caller} (h : s.fg = .getKey caller (.gk3Save 0)) :
    (microStep^[6] s).fg = .getKey caller (.gk3Fill 0) :=
  microSteps_over_slots (before := fun i t => t.fg = .getKey caller (.gk3Save i))
    (after := fun t => t.fg = .getKey caller (.gk3Fill 0))
    (fun i t ht => by rw [microStep_getKey ht, getKeyStep, getKeySave]; cases nextSlot i <;> rfl) h

theorem microSteps_fills {s : State} {caller : Caller} (h : s.fg = .getKey caller (.gk3Fill 0)) :
    (microStep^[6] s).fg = .getKey caller .gk4 :=
  microSteps_over_slots (before := fun i t => t.fg = .getKey caller (.gk3Fill i))
    (after := fun t => t.fg = .getKey caller .gk4)
    (fun i t ht => by rw [microStep_getKey ht, getKeyStep, getKeyFill]; cases nextSlot i <;> rfl) h

/-- GK7: the restores keep the mapped code. -/
theorem microSteps_restores {s : State} {caller : Caller} {m : Byte} (h : s.fg = .getKey caller (.gk7 0))
    (hm : s.gk.m = m) : (microStep^[6] s).fg = .getKey caller .gk8 ∧ (microStep^[6] s).gk.m = m :=
  microSteps_over_slots (before := fun i t => t.fg = .getKey caller (.gk7 i) ∧ t.gk.m = m)
    (after := fun t => t.fg = .getKey caller .gk8 ∧ t.gk.m = m)
    (fun i t ⟨ht, hm⟩ => by
      rw [microStep_getKey ht, getKeyStep, getKeyRestore]
      cases nextSlot i <;> exact ⟨rfl, hm⟩) ⟨h, hm⟩

/-- GK1 and GK3: thirteen micro-steps from the shift key to the wait for its release. -/
theorem microSteps_shift_fg {s : State} {caller : Caller} (hfg : s.fg = .getKey caller .gk1)
    (hcode : s.ks.currentCode = Config.shiftCode) : (microStep^[13] s).fg = .getKey caller .gk4 := by
  have hpoll : (microStep s).fg = .getKey caller (.gk3Save 0) := by
    rw [microStep_getKey hfg, getKeyStep, getKeyPoll_of_shift caller hcode]
  exact microSteps_fills (microSteps_saves hpoll)

/-- GK7 and GK8: seven micro-steps from the first restore to the return. -/
theorem microSteps_restore_return {s : State} {caller : Caller} (hfg : s.fg = .getKey caller (.gk7 0)) :
    (microStep^[7] s).fg = .idle ∧
      (microStep^[7] s).response = if caller = .host then .datum s.gk.m else .done := by
  obtain ⟨hgk8, hm⟩ := microSteps_restores hfg rfl
  rw [Function.iterate_succ_apply', microStep_getKey hgk8, getKeyStep, getKeyReturn_eq, hm]
  exact ⟨rfl, rfl⟩

/-- GK4: the shift key's release goes to the wait for the second key, with the scanner idle at the next column. -/
theorem disturbedStep_shiftRelease {s : State} {caller : Caller} {off : Rows} (hfg : s.fg = .getKey caller .gk4)
    (hoff : contact off = none) :
    (disturbedStep [off] s).fg = .getKey caller .gk5 ∧ (disturbedStep [off] s).ks.isIdle ∧
      (disturbedStep [off] s).ks.activeColumn = s.ks.activeColumn + 1 := by
  have hks : (tick off s).ks = _ := (tick_ks off s).trans (scan_none hoff s.ks)
  have hstep : disturbedStep [off] s = (tick off s).goto (.getKey caller .gk5) :=
    (disturbedStep_getKey hfg [off]).trans (getKeyShiftRelease_of_released caller (congrArg _ hks))
  rw [hstep, State.goto_ks, hks]
  exact ⟨rfl, ⟨rfl, rfl⟩, rfl⟩

/-- GK5: two contacts latch the second key, and the poll maps its hex digit (R166). -/
theorem disturbedStep_second {s : State} {caller : Caller} {press : Rows} {r : Fin 4} {d : Fin 16}
    (hfg : s.fg = .getKey caller .gk5) (hidle : s.ks.isIdle) (hpress : contact press = some r)
    (hkey : keyMatrix r s.ks.activeColumn = BitVec.ofNat 8 d.val) :
    (disturbedStep [press, press] s).fg = .getKey caller .gk6 ∧
      (disturbedStep [press, press] s).gk.m = secondaryKey d := by
  have hcode : (ticks [press, press] s).ks.currentCode = BitVec.ofNat 8 d.val :=
    (holdsKey_of_two_contacts hidle hpress hpress).code.trans hkey
  have hd : (BitVec.ofNat 8 d.val).toNat = d.val := by simp; omega
  have hne : (ticks [press, press] s).ks.currentCode ≠ Config.sentinel := fun he => by
    have := congrArg BitVec.toNat (hcode.symm.trans he)
    rw [hd] at this
    have : d.val = 255 := this
    omega
  have hmap (n : Nat) : (secondaryMap (BitVec.ofNat 8 d.val) n).1 = secondaryKey d := by
    rw [secondaryMap, dif_pos (by omega)]
    simp only [hd]
  have hstep := (disturbedStep_getKey hfg [press, press]).trans (getKeySecond_of_code caller hne)
  rw [hstep, hcode]
  exact ⟨rfl, hmap _⟩

/-- GK6: the second key's release goes to the restores with the mapped code. -/
theorem disturbedStep_secondRelease {s : State} {caller : Caller} {off : Rows} (hfg : s.fg = .getKey caller .gk6)
    (hoff : contact off = none) :
    (disturbedStep [off] s).fg = .getKey caller (.gk7 0) ∧ (disturbedStep [off] s).gk.m = s.gk.m := by
  obtain ⟨⟨-, hheld⟩, -⟩ := tick_released hoff s
  have hstep : disturbedStep [off] s = (tick off s).goto (.getKey caller (.gk7 0)) :=
    (disturbedStep_getKey hfg [off]).trans (getKeySecondRelease_of_released caller hheld)
  rw [hstep, State.goto_gk, tick_gk]
  exact ⟨rfl, rfl⟩

/-- The state the shift sequence ends in: release, second key and its release after the thirteen micro-steps. -/
def shiftSequence (off press : Rows) (s : State) : State :=
  microStep^[7] (disturbedStep [off] (disturbedStep [press, press] (disturbedStep [off] (microStep^[13] s))))

theorem runs_shiftSequence (off press : Rows) (s : State) (rest : List Arrival) :
    runs 27 (s.withArrivals (List.replicate 13 .micro ++
        (.tick off :: .micro :: .tick press :: .tick press :: .micro :: .tick off :: .micro ::
          (List.replicate 7 .micro ++ rest)))) =
      .next ((shiftSequence off press s).withArrivals rest) :=
  (runs_add (n := 14) (runs_microSteps 13 s _)).trans <|
    (runs_add (n := 12) (runs_disturbedStep [off] _ _)).trans <|
      (runs_add (n := 9) (runs_disturbedStep [press, press] _ _)).trans <|
        (runs_add (n := 7) (runs_disturbedStep [off] _ _)).trans (runs_microSteps 7 _ rest)

theorem shiftSequence_fg_response {s : State} {caller : Caller} {off press : Rows} {r : Fin 4} {d : Fin 16}
    (hfg : s.fg = .getKey caller .gk1) (hcode : s.ks.currentCode = Config.shiftCode) (hoff : contact off = none)
    (hpress : contact press = some r) (hkey : keyMatrix r (s.ks.activeColumn + 1) = BitVec.ofNat 8 d.val) :
    (shiftSequence off press s).fg = .idle ∧
      (shiftSequence off press s).response = if caller = .host then .datum (secondaryKey d) else .done := by
  obtain ⟨hgk5, hidle, hcol⟩ := disturbedStep_shiftRelease (microSteps_shift_fg hfg hcode) hoff
  rw [microSteps_ks] at hcol
  obtain ⟨hgk6, hm⟩ := disturbedStep_second hgk5 hidle hpress (hcol ▸ hkey)
  obtain ⟨hgk7, hm'⟩ := disturbedStep_secondRelease hgk6 hoff
  rw [← hm, ← hm']
  exact microSteps_restore_return hgk7

theorem WithinGetKey.after_shiftSequence {s : State} (h : WithinGetKey s s) (off press : Rows) :
    WithinGetKey s (shiftSequence off press s) :=
  ((((h.after_microSteps 13).after_disturbedStep [off]).after_disturbedStep [press, press]).after_disturbedStep
    [off]).after_microSteps 7

end Machine

open Machine

/-- Settles O25: the phases and the mapped code leg by leg; the display from what every micro-step of `GetKey` keeps
track of. -/
theorem shiftSequenceAnswersSecondaryCode : Obligations.ShiftSequenceAnswersSecondaryCode := by
  intro s caller off press r d rest hfg hcode hoff hpress hkey
  have hwithin := WithinGetKey.of_gk1 hfg
  refine ⟨⟨_, runs_microSteps 13 s rest, ?_, ?_⟩, _, runs_shiftSequence off press s rest, ?_⟩
  · have hsound := microSteps_phaseSound 13 (s := s) (by simp only [phaseSound, hfg])
    simp only [phaseSound, microSteps_shift_fg hfg hcode] at hsound
    exact hsound
  · exact (hwithin.after_microSteps 13).saved_of_gk4 (microSteps_shift_fg hfg hcode)
  · obtain ⟨hidle, hresponse⟩ := shiftSequence_fg_response hfg hcode hoff hpress hkey
    have hend := hwithin.after_shiftSequence off press
    exact ⟨hidle, hresponse, hend.db_of_idle hidle, hend.mem, rfl⟩

/-- Settles O27: a busy core's step is a tick or a micro-step, and the micro-step that completes returns a code the
invariant keeps from being the sentinel. -/
theorem getKeyNeverAnswersSentinel : Obligations.GetKeyNeverAnswersSentinel := by
  intro s t p hs hfg hstep hidle hreset
  obtain ⟨rest, -, ⟨rows, -, rfl⟩ | rfl⟩ :=
    step_tick_or_micro (by simp [hfg]) (.inl (by simp [hfg])) hreset hstep
  · simp [hfg] at hidle
  · rw [microStep_getKey hfg] at hidle ⊢
    exact getKeyStep_response_of_idle hfg hs.phase hidle

/-- Settles O28: every step without the host stays within this one `GetKey`. -/
theorem getKeyLeavesDisplayAsFound : Obligations.GetKeyLeavesDisplayAsFound := by
  intro n s t caller hfg hhost hruns hidle
  obtain ⟨hwithin, -⟩ := runs_induction
    (P := fun u => WithinGetKey s u ∧ ∀ x ∈ u.arrivals, x.fromHost = false)
    (fun _ _ h hstep => h.1.after_step h.2 hstep) ⟨.of_gk1 hfg, hhost⟩ hruns
  exact ⟨hwithin.db_of_idle hidle, hwithin.mem, hwithin.pc, hwithin.latch⟩

/-- Settles O29: what a poll waits on is kept by its own evaluations and by the ticks the statement allows. -/
theorem getKeyHasNoTimeout : Obligations.GetKeyHasNoTimeout := by
  intro n s t caller p hfg hruns hhost
  refine ⟨?_, ?_⟩
  · rintro (rfl | rfl) hcode hrows <;> exact (Waiting.after_runs ⟨hfg, hcode, hhost, hrows⟩ hruns).fg
  · rintro (rfl | rfl | rfl) hheld hrows <;> exact (Waiting.after_runs ⟨hfg, hheld, hhost, hrows⟩ hruns).fg

/-- Settles O21: an idle core accepts the command and answers its latch. -/
theorem peekKeyAnswersLatchedCode : Obligations.PeekKeyAnswersLatchedCode := by
  intro s hidle
  rw [exec, execPeekKey, accept_idle hidle]
  rfl

/-- Settles O23: the three answers of the poll at GK1, the two at GK2. -/
theorem getKeyPollsAndReturnsCode : Obligations.GetKeyPollsAndReturnsCode := by
  intro s caller
  refine ⟨fun hfg => ?_, fun hfg => ?_⟩ <;> rw [microStep_getKey hfg, getKeyStep]
  · refine ⟨fun hcode => ?_, fun hcode => ?_, getKeyPoll_of_plain caller⟩
    · rw [getKeyPoll_of_sentinel caller hcode, hfg]
    · rw [getKeyPoll_of_shift caller hcode]
  · refine ⟨getKeyRelease_of_held caller, fun hheld => ?_⟩
    rw [getKeyRelease_of_released caller hheld, getKeyReturn_eq]

/-- Settles O24: accepted, the code read at GK1, the key released, the code returned at GK2. -/
theorem getKeyPlainKeyAnswersAfterRelease : Obligations.GetKeyPlainKeyAnswersAfterRelease := by
  intro s rows rest hidle hsentinel hshift hrows
  obtain ⟨hreturned, hresponse⟩ :=
    disturbedStep_plainKey (s := getKeyBegun s) rfl hsentinel hshift hrows
  have hwithin : WithinGetKey (getKeyBegun s) _ :=
    (WithinGetKey.of_gk1 rfl).after_microStep.after_disturbedStep [rows]
  refine ⟨_, (runs_of_next (step_getKey_command hidle _) 3).trans <|
    (runs_add (n := 2) (runs_microSteps 1 _ _)).trans (runs_disturbedStep [rows] _ rest), ?_⟩
  exact ⟨hreturned, hresponse, hwithin.db_of_idle hreturned, hwithin.mem, hwithin.pc, rfl⟩

end Sys2Proof
end

section
/-! Proofs, family `43_subleq_emulator.md`: `SUBLEQ` as one instruction and as its micro-steps, the cancel checks, and
a run from `RUN` to its acknowledgement (R180 to R197, R206). -/

namespace Sys2Proof

namespace Machine

/-! The subtraction (R188) -/

theorem difference_eq_zero_iff (vb va : Byte) : difference vb va = 0 ↔ vb = va := sub_eq_zero

theorem difference_toNat (vb va : Byte) : (difference vb va).toNat = (256 - va.toNat + vb.toNat) % 256 :=
  BitVec.toNat_sub vb va

/-- A cell minus itself is zero (R191(i)). -/
theorem subleqValue_self (a : Byte) (s : State) : subleqValue a a s = 0 :=
  (subleqValue_eq_difference a a s).trans ((difference_eq_zero_iff _ _).2 rfl)

/-- Zero stored at an address clears every slot it reaches whole (R191(i)). -/
theorem slot_memWrite_zero (s : State) {a : Address} {i : Fin 6} (hi : i ∈ slotsOf a) : (memWrite s a 0).slot i = 0 := by
  obtain ⟨hb, -⟩ | ⟨j, hb, e⟩ | ⟨j, k, hb, e⟩ := memWrite_cases s a 0
  · simp [slotsOf, hb] at hi
  · obtain rfl : i = j := by simpa [slotsOf, hb] using hi
    rw [e, State.slot_setSlot, if_pos rfl]
  · have hlow : lowNibble 0 = 0 := rfl
    have hhigh : highNibble 0 = 0 := rfl
    obtain rfl | rfl : i = j ∨ i = k := by simpa [slotsOf, hb] using hi
    · rw [e, State.slot_setSlot, State.slot_setSlot, hhigh, hlow, if_pos rfl, ite_self]
    · rw [e, State.slot_setSlot, hhigh, if_pos rfl]

/-! The cancel check (R184) -/

theorem cancelObserved_of_cancelCode {s : State} (h : s.ks.currentCode = cancelCode) : cancelObserved s = true :=
  (isCancel_iff _).2 h

theorem cancelObserved_of_ne {s : State} (h : s.ks.currentCode ≠ cancelCode) : cancelObserved s = false :=
  Bool.eq_false_iff.2 fun hc => h ((isCancel_iff _).1 hc)

theorem cancelObserved_of_sentinel {s : State} (h : s.ks.currentCode = 0xFF) : cancelObserved s = false := by
  rw [cancelObserved, h, isCancel_sentinel]

theorem microStep_of_e6 {s : State} (h : s.fg = .e6) :
    microStep s = s.goto (if cancelObserved s = true then .x1 else .e7) := by
  simp only [microStep, h, firstCancelCheck]
  split <;> rfl

theorem microStep_of_e8 {s : State} (h : s.fg = .e8) :
    microStep s = s.goto (if cancelObserved s = true then .x1 else .e9) := by
  simp only [microStep, h, secondCancelCheck]
  split <;> rfl

/-! The branch, the loop test and the exit sequence (R183, R186, R189) -/

theorem branchTaken_iff (result : Byte) : branchTaken result = true ↔ result = 0 := beq_iff_eq

theorem runGoesOn_iff (pc : Byte) : runGoesOn pc = true ↔ pc ≠ 0 := bne_iff_ne

theorem microStep_of_e7 {s : State} (h : s.fg = .e7) :
    microStep s = (s.setPc (if s.latch.result = 0 then s.latch.c else s.pc)).goto .e8 := by
  simp only [microStep, h, branch, branchTaken_iff]
  split <;> rfl

theorem microStep_of_e9 {s : State} (h : s.fg = .e9) : microStep s = s.goto (if s.pc = 0 then .x1 else .e1) := by
  simp only [microStep, h, loopTest, runGoesOn_iff, ite_not]
  split <;> rfl

theorem microStep_of_x1 {s : State} (h : s.fg = .x1) :
    microStep s = s.goto (if s.ks.keyHeld = true then .x1 else .getKey .run .gk1) := by
  simp only [microStep, h, exitRelease]
  split
  · rw [State.goto, ← h]
  · rfl

/-! The whole instruction (R195, R197) -/

/-- Where an instruction that is not cancelled goes on. -/
def subleqTarget (a b c : Byte) (s : State) : Byte := if subleqValue a b s = 0 then c else s.pc + 3

/-- The instruction has stored, branched and passed the loop test. -/
def subleqDone (a b c : Byte) (s : State) : State :=
  { subleqStored a b c s with
    pc := subleqTarget a b c s, fg := if subleqTarget a b c s = 0 then .x1 else .e1 }

section
variable {s : State} (a b c : Byte)

theorem exec_subleq_of_not_cancelled (h : cancelObserved s = false) :
    exec (.subleq a b c) s = .next (subleqDone a b c s) := by
  simp only [exec, execSubleq_eq, ← subleqValue_eq_difference, nextPc_three, h, branchTaken_iff, runGoesOn_iff, ite_not,
    true_and, Bool.false_eq_true, if_false]
  rfl

theorem exec_subleq_of_cancelled (h : cancelObserved s = true) :
    exec (.subleq a b c) s = .next ((subleqStored a b c s).goto .x1) := by
  simp only [exec, execSubleq_eq, ← subleqValue_eq_difference, nextPc_three, h, Bool.true_eq_false, false_and,
    if_true, if_false]
  rfl

theorem subleqStored_withArrivals (s : State) (rest : List Arrival) :
    subleqStored a b c (s.withArrivals rest) = (subleqStored a b c s).withArrivals rest := by
  have hvalue : subleqValue a b (s.withArrivals rest) = subleqValue a b s := rfl
  rw [subleqStored, hvalue, memWrite_withArrivals]
  rfl

theorem subleqDone_withArrivals (s : State) (rest : List Arrival) :
    subleqDone a b c (s.withArrivals rest) = (subleqDone a b c s).withArrivals rest := by
  rw [subleqDone, subleqStored_withArrivals]
  rfl

/-- A memory write does not look at the Keyboard State. -/
theorem memWrite_with_ks (s : State) (ks : KeyboardState) (x : Address) (v : Byte) :
    memWrite { s with ks := ks } x v = { memWrite s x v with ks := ks } := by
  unfold memWrite
  split <;> rfl

/-- The instruction neither reads nor changes the Keyboard State but for the cancel check (R194). -/
theorem subleqDone_with_ks (s : State) (ks : KeyboardState) :
    subleqDone a b c { s with ks := ks } = { subleqDone a b c s with ks := ks } := by
  have hvalue : subleqValue a b { s with ks := ks } = subleqValue a b s := rfl
  rw [subleqDone, subleqStored, hvalue, memWrite_with_ks]
  rfl

/-- Memory and display after an instruction that computed zero. -/
theorem subleqDone_mem_db_of_zero (h : subleqValue a b s = 0) :
    (subleqDone a b c s).mem = (memWrite s (operandAddress b) 0).mem ∧
      (subleqDone a b c s).db = (memWrite s (operandAddress b) 0).db := by
  rw [subleqDone, subleqStored, h]
  exact ⟨rfl, rfl⟩

@[simp] theorem cancelObserved_subleqStored (s : State) :
    cancelObserved (subleqStored a b c s) = cancelObserved s := by
  simp [cancelObserved, subleqStored]

end

/-! The micro-steps of an instruction (R180) -/

section
variable {s : State} {a b c : Byte}

/-- E1 to E5. -/
theorem microSteps_store (hfg : s.fg = .e1) (h : fetchBytes s = [a, b, c]) :
    microStep^[5] s = subleqStored a b c s := by
  have he1 : microStep s = fetchA s := by simp only [microStep, hfg]
  calc microStep^[5] s = microStep^[4] (fetchA s) := by rw [Function.iterate_succ_apply, he1]
    _ = storeResult (subtract (fetchC (fetchB (fetchA s)))) := rfl
    _ = subleqStored a b c s := by rw [fetched_eq_operandsFetched h, storeResult_subtract_operandsFetched]

/-- E6 where no cancel code is latched, E7, E8 and E9. -/
theorem microSteps_branch_loop (hc : cancelObserved s = false) :
    microStep^[4] (subleqStored a b c s) = subleqDone a b c s := by
  have he6 : microStep (subleqStored a b c s) = (subleqStored a b c s).goto .e7 := by
    rw [microStep_of_e6 rfl, cancelObserved_subleqStored, hc]
    rfl
  have he7 : microStep ((subleqStored a b c s).goto .e7) =
      ((subleqStored a b c s).setPc (subleqTarget a b c s)).goto .e8 := microStep_of_e7 rfl
  have he8 : microStep (((subleqStored a b c s).setPc (subleqTarget a b c s)).goto .e8) =
      ((subleqStored a b c s).setPc (subleqTarget a b c s)).goto .e9 := by
    have hc' : cancelObserved (((subleqStored a b c s).setPc (subleqTarget a b c s)).goto .e8) = false :=
      (cancelObserved_subleqStored a b c s).trans hc
    rw [microStep_of_e8 rfl, hc']
    rfl
  calc microStep^[4] (subleqStored a b c s)
      = microStep (microStep (microStep (microStep (subleqStored a b c s)))) := rfl
    _ = microStep (((subleqStored a b c s).setPc (subleqTarget a b c s)).goto .e9) := by rw [he6, he7, he8]
    _ = subleqDone a b c s := microStep_of_e9 rfl

end

/-! A run, from the command to its completion (R182, R186, R206) -/

/-- An accepted `RUN`: at E0, with no result on the port. -/
def runAccepted (s : State) : State := (s.respond .nothing).goto .e0

/-- E0 is done: the first instruction is about to be fetched. -/
def runBegun (s : State) : State := { s with pc := 10, fg := .e1, response := .nothing }

theorem exec_run_of_idle {s : State} (hidle : s.fg = .idle) : exec .run s = .next (runAccepted s) := by
  rw [exec, execRun, accept_idle hidle]
  rfl

theorem runs_run_command {s : State} (hidle : s.fg = .idle) (rest : List Arrival) :
    runs 2 (s.withArrivals (.command 0x5000000 :: .micro :: rest)) = .next ((runBegun s).withArrivals rest) := by
  have hstep : step (s.withArrivals (.command 0x5000000 :: .micro :: rest)) =
      .next ((runAccepted s).withArrivals (.micro :: rest)) := by
    rw [step_command, show decodeCommand 0x5000000 = .instr .run by decide, execDecoded,
      exec_run_of_idle (s := s.withArrivals (.micro :: rest)) hidle]
    rfl
  exact (runs_of_next hstep 1).trans (runs_microSteps 1 (runAccepted s) rest)

/-- The instruction at the program counter, run as one step. -/
theorem step_proceed_subleq {s : State} {a b c : Byte} (hfg : s.fg = .e1) (h : fetchBytes s = [a, b, c])
    (hc : cancelObserved s = false) (rest : List Arrival) :
    step (s.withArrivals (.proceed :: rest)) = .next ((subleqDone a b c s).withArrivals rest) := by
  have hdecode : decode (fetchBytes (s.withArrivals rest)) = .instr (.subleq a b c) := congrArg decode h
  rw [step_proceed, proceed_of_decode (s := s.withArrivals rest) hfg hdecode,
    exec_subleq_of_not_cancelled (s := s.withArrivals rest) a b c hc, subleqDone_withArrivals]

/-- The exit sequence of a run that has left the loop with no key down: X1, a key other than shift, its release. -/
def acknowledged (press off : Rows) (s : State) : State :=
  disturbedStep [off] (disturbedStep [press, press] (microStep s))

theorem runs_acknowledged (press off : Rows) (s : State) (rest : List Arrival) :
    runs 6 (s.withArrivals (.micro :: .tick press :: .tick press :: .micro :: .tick off :: .micro :: rest)) =
      .next ((acknowledged press off s).withArrivals rest) :=
  runs_interleaved [[], [press, press], [off]] s rest

/-- The acknowledged run is complete, and its memory and display are those the loop left (R186). -/
theorem acknowledged_complete {s : State} {press off : Rows} {r : Fin 4} (hfg : s.fg = .x1) (hidle : s.ks.isIdle)
    (hpress : contact press = some r) (hkey : keyMatrix r s.ks.activeColumn ≠ Config.shiftCode)
    (hoff : contact off = none) :
    (acknowledged press off s).fg = .idle ∧ (acknowledged press off s).response = .done ∧
      (acknowledged press off s).mem = s.mem ∧ (acknowledged press off s).db = s.db := by
  have hx1 : microStep s = s.goto (.getKey .run .gk1) := by
    obtain ⟨-, hheld⟩ := hidle
    rw [microStep_of_x1 hfg, if_neg (by simp [hheld])]
  have hcode : (ticks [press, press] (microStep s)).ks.currentCode = keyMatrix r s.ks.activeColumn := by
    rw [hx1]
    exact (holdsKey_of_two_contacts (s := s.goto (.getKey .run .gk1)) hidle hpress hpress).code
  have hgk1 : (ticks [press, press] (microStep s)).fg = .getKey .run .gk1 := by
    rw [hx1]
    exact (ticks_foregroundStateKept [press, press] _).fg
  obtain ⟨hend, hresponse⟩ : (acknowledged press off s).fg = .idle ∧ (acknowledged press off s).response = .done :=
    disturbedStep_plainKey hgk1 (hcode ▸ keyMatrix_ne_sentinel _ _) (hcode ▸ hkey) hoff
  have hwithin : WithinGetKey (microStep s) (acknowledged press off s) :=
    ((WithinGetKey.of_gk1 (by rw [hx1]; rfl)).after_disturbedStep [press, press]).after_disturbedStep [off]
  refine ⟨hend, hresponse, hwithin.mem.trans ?_, (hwithin.db_of_idle hend).trans ?_⟩ <;> rw [hx1] <;> rfl

end Machine

open Machine

/-- Settles O30: the instruction in one equation, where the cancel check does not fire. -/
theorem subleqStoresDifferenceAndBranches : Obligations.SubleqStoresDifferenceAndBranches := by
  intro a b c s hkey
  have hc : cancelObserved s = false := hkey.elim cancelObserved_of_ne cancelObserved_of_sentinel
  exact exec_subleq_of_not_cancelled a b c hc

/-- Settles O31: the instruction where the cancel check fires, and each of the two checks either way. -/
theorem subleqCancelledKeepsItsStore : Obligations.SubleqCancelledKeepsItsStore := by
  intro s
  refine ⟨fun hkey => ?_, fun hkey => ?_⟩
  · have hc := cancelObserved_of_cancelCode hkey
    refine ⟨fun a b c => exec_subleq_of_cancelled a b c hc, ?_⟩
    rintro (hfg | hfg)
    · simpa [hc, State.goto] using microStep_of_e6 hfg
    · simpa [hc, State.goto] using microStep_of_e8 hfg
  · have hc := cancelObserved_of_ne hkey
    refine ⟨fun hfg => ?_, fun hfg => ?_⟩
    · simpa [hc, State.goto] using microStep_of_e6 hfg
    · simpa [hc, State.goto] using microStep_of_e8 hfg

/-- Settles O34: the difference of a cell and itself is zero, and a zero stored clears every slot of the cell. -/
theorem sameCellClearsAndBranches : Obligations.SameCellClearsAndBranches := by
  intro a c s hkey
  have hvalue := subleqValue_self a s
  obtain ⟨hmem, hdb⟩ := subleqDone_mem_db_of_zero a a c hvalue
  refine ⟨_, exec_subleq_of_not_cancelled a a c (cancelObserved_of_sentinel hkey), if_pos hvalue,
    (memRead_congr hmem hdb _).trans (memRead_memWrite_zero s _), fun i hi => ?_⟩
  rw [hdb]
  exact slot_memWrite_zero s hi

/-- Settles O37: five micro-steps store; four more branch and pass the loop test, or the first of them leaves. -/
theorem microStepsComposeToInstruction : Obligations.MicroStepsComposeToInstruction := by
  intro s a b c rest hfg hbytes
  refine ⟨fun hc => ?_, fun hc => ?_⟩
  · rw [runs_microSteps, exec_subleq_of_not_cancelled (s := s.withArrivals rest) a b c hc, subleqDone_withArrivals,
      Function.iterate_add_apply microStep 4 5, microSteps_store hfg hbytes, microSteps_branch_loop hc]
  · rw [runs_microSteps, exec_subleq_of_cancelled (s := s.withArrivals rest) a b c hc, subleqStored_withArrivals,
      Function.iterate_succ_apply', microSteps_store hfg hbytes, microStep_of_e6 rfl, cancelObserved_subleqStored,
      if_pos hc]
    rfl

/-- Settles O40: where neither cancel check fires the Keyboard State only passes through. -/
theorem keyboardInvisibleToInstruction : Obligations.KeyboardInvisibleToInstruction := by
  intro a b c s ks hs hks
  refine ⟨_, exec_subleq_of_not_cancelled a b c hs, ?_⟩
  rw [← subleqDone_with_ks]
  exact exec_subleq_of_not_cancelled (s := { s with ks := ks }) a b c hks

/-- Settles O44: the start, the one instruction, which branches to 0, and the acknowledged exit. -/
theorem runOfHaltingProgramCompletes : Obligations.RunOfHaltingProgramCompletes := by
  intro s a b press off r rest hfg hidle hcode hbytes hvalue hpress hkey hoff
  have hbegun : fetchBytes (runBegun s) = [a, b, 0] := hbytes
  have hvalue' : subleqValue a b (runBegun s) = 0 := hvalue
  have htarget : subleqTarget a b 0 (runBegun s) = 0 := if_pos hvalue'
  have hx1 : (subleqDone a b 0 (runBegun s)).fg = .x1 := if_pos htarget
  have hks : (subleqDone a b 0 (runBegun s)).ks = s.ks := memWrite_ks (runBegun s) _ _
  obtain ⟨hend, hresponse, hmem, hdb⟩ := acknowledged_complete hx1 (hks ▸ hidle) hpress (hks ▸ hkey) hoff
  obtain ⟨hmemDone, hdbDone⟩ := subleqDone_mem_db_of_zero a b 0 hvalue'
  obtain ⟨hmemStart, hdbStart⟩ := memWrite_congr (s := s) (t := runBegun s) rfl rfl (operandAddress b) 0
  have hmemEnd := hmem.trans (hmemDone.trans hmemStart)
  have hdbEnd := hdb.trans (hdbDone.trans hdbStart)
  refine ⟨_, (runs_add (n := 7) (runs_run_command hfg _)).trans <|
    (runs_of_next (step_proceed_subleq rfl hbegun (cancelObserved_of_sentinel hcode) _) 6).trans
      (runs_acknowledged press off _ rest), hend, hresponse, rfl, ?_, hmemEnd, hdbEnd⟩
  exact (memRead_congr hmemEnd hdbEnd _).trans (memRead_memWrite_zero s _)

/-- Settles O33: the difference as a number, and as zero. -/
theorem subtractionWrapsModulo256 : Obligations.SubtractionWrapsModulo256 := by
  intro vb va
  have := vb.isLt
  have := va.isLt
  have hdiff := difference_toNat vb va
  exact ⟨by omega, fun _ => by omega, fun _ => by omega, difference_eq_zero_iff vb va, rfl, rfl, rfl, rfl, rfl, rfl, rfl,
    rfl, rfl, rfl, rfl⟩

/-- Settles O36: without a branch the program counter is past the three bytes, modulo 256. -/
theorem fallThroughWrapsAtTheTop : Obligations.FallThroughWrapsAtTheTop := by
  intro a b c s hkey hvalue
  have hexec := exec_subleq_of_not_cancelled a b c (cancelObserved_of_sentinel hkey)
  have htarget : subleqTarget a b c s = s.pc + 3 := if_neg hvalue
  refine ⟨fun hpc => ⟨_, hexec, ?_⟩, fun hpc => ⟨_, hexec, ?_⟩, fun hpc => ⟨_, hexec, ?_⟩⟩ <;>
    simp [subleqDone, htarget, hpc]

/-- Settles O41: acceptance goes to E0, and E0 loads the program counter. -/
theorem runStartsAtTen : Obligations.RunStartsAtTen :=
  fun _ rest hidle => ⟨exec_run_of_idle hidle, runs_run_command hidle rest⟩

/-- Settles O42: the loop test, the poll at X1, and the return of a run's `GetKey`. -/
theorem loopEndsAtZeroAndAwaitsAcknowledgement : Obligations.LoopEndsAtZeroAndAwaitsAcknowledgement :=
  fun _ => ⟨microStep_of_e9, microStep_of_x1, microStep_getKey⟩

end Sys2Proof
end

section
/-! Proofs, family `44_host_commands.md`: the acceptance of `GET_KEY` (R200, R204). -/

namespace Sys2Proof

open Machine

/-- Settles O22: acceptance by an idle core clears the result, and the command's body only moves the sequencer. -/
theorem getKeyStartsPolling : Obligations.GetKeyStartsPolling := by
  intro s hidle
  rw [exec, execGetKey, accept_idle hidle]
  rfl

end Sys2Proof
end

section
/-! Proofs, family `70_reset_and_hazards.md`: the exit sequence of a run leaves the program's result (R186, R258). -/

namespace Sys2Proof

namespace Machine

/-- With `s` at X1: `t` is reached within the exit sequence, or after it with the foreground idle. Either the poll at X1
goes on, nothing of the foreground's changed, or `t` is within the `GetKey` that X1 calls. -/
def WithinExit (s t : State) : Prop := ForegroundStateKept s t ∨ WithinGetKey s t

section
variable {s t : State}

theorem WithinExit.mem_eq (h : WithinExit s t) : t.mem = s.mem := Or.elim h (·.mem) (·.mem)

theorem WithinExit.db_of_idle (h : WithinExit s t) (hidle : t.fg = .idle) : t.db = s.db :=
  Or.elim h (·.db) (·.db_of_idle hidle)

theorem WithinExit.fg_ne_e1 (h : WithinExit s t) (hx1 : s.fg = .x1) : t.fg ≠ .e1 := by
  obtain hkept | hwithin := h
  · simp [hkept.fg, hx1]
  · obtain hfg | ⟨caller, p, hfg⟩ := hwithin.fg_cases <;> simp [hfg]

theorem WithinExit.withArrivals (h : WithinExit s t) (rest : List Arrival) : WithinExit s (t.withArrivals rest) :=
  h.imp (fun hkept => hkept.trans ⟨rfl, rfl, rfl, rfl, rfl, rfl, rfl, rfl⟩) (·.withArrivals rest)

theorem WithinExit.after_tick (h : WithinExit s t) (rows : Rows) : WithinExit s (tick rows t) :=
  h.imp (·.trans (tick_foregroundStateKept rows t)) (·.after_ticks [rows])

/-- The poll at X1 writes the phase only, so its `GetKey` finds the display of X1. -/
theorem WithinExit.after_microStep (h : WithinExit s t) (hx1 : s.fg = .x1) : WithinExit s (microStep t) := by
  obtain hkept | hwithin := h
  · have ht : t.fg = .x1 := hkept.fg.trans hx1
    rw [microStep_of_x1 ht]
    split
    · rw [State.goto, ← ht]
      exact .inl hkept
    · exact .inr ⟨hkept.db, hkept.mem, hkept.pc, hkept.latch⟩
  · exact .inr hwithin.after_microStep

theorem WithinExit.after_step (h : WithinExit s t) (hx1 : s.fg = .x1) (hhost : ∀ x ∈ t.arrivals, x.fromHost = false)
    {u : State} (hu : step t = .next u) : WithinExit s u ∧ ∀ x ∈ u.arrivals, x.fromHost = false := by
  obtain ⟨rest, hrest, ⟨rows, -, rfl⟩ | rfl⟩ := step_tick_or_micro_of_no_host (h.fg_ne_e1 hx1) hhost hu
  · exact ⟨(h.after_tick rows).withArrivals rest, fun x hx => hhost x (hrest hx)⟩
  · exact ⟨(h.after_microStep hx1).withArrivals rest, fun x hx => hhost x (hrest hx)⟩

end

end Machine

open Machine

/-- Settles O43: every step without the host stays within the exit sequence, whose only stores are `GetKey`'s to the
display, which its return has undone. -/
theorem programResultStaysAfterExit : Obligations.ProgramResultStaysAfterExit := by
  intro n s t hx1 hhost hruns
  obtain ⟨hwithin, -⟩ := runs_induction
    (P := fun u => WithinExit s u ∧ ∀ x ∈ u.arrivals, x.fromHost = false)
    (fun _ _ h hstep => h.1.after_step hx1 h.2 hstep) ⟨.inl (.refl s), hhost⟩ hruns
  exact ⟨hwithin.mem_eq, hwithin.db_of_idle⟩

end Sys2Proof
end
